-- ==== Sys2Proof/Word.lean ====
section
/-! DEFINITION. The words of the machine: bytes, 16-bit words and register names (00_scope.md R5, R6). -/

namespace Sys2Proof

/-- A memory cell or a general register: 8 bits, unsigned (10_state.md R10, 20_memory.md R36). -/
abbrev Byte := BitVec 8

/-- An instruction word, `I`, `pc` or a stack slot: 16 bits, unsigned (10_state.md R12 to R14). -/
abbrev Word := BitVec 16

/-- A 12-bit address immediate `NNN` (30_encoding.md R56). -/
abbrev Addr12 := BitVec 12

/-- The name of a general register, 0 to 15; 15 is VF (10_state.md R10, R11). -/
abbrev Reg := Fin 16

/-- VF, the register that doubles as the flag (10_state.md R11). -/
abbrev regVF : Reg := 15

end Sys2Proof
end

