-- ==== Sys2Proof/Config.lean ====
section
/-! DEFINITION. The parameters of the hardware that the source fixes (00_scope.md R4), and the one free value.
The parameters the spec itself decided stand where a repair may mend them: `FONT_BASE` and `FONT` in Machine/Font.lean,
the policies in Machine/Ops.lean. `I_WIDTH` and `PC_WIDTH` are the width of `Word`. -/

namespace Sys2Proof.Config

/-- `MEM_SIZE`: memory has the addresses 0x000 to 0xFFF (20_memory.md R35). -/
def memSize : Nat := 4096

/-- `PROG_BASE`: where a program is loaded and where `pc` stands after reset (00_scope.md R4). -/
def progBase : Nat := 0x200

/-- `PROG_MAX_LEN`: the longest image `load_program` takes, 0xFFF - 0x200 bytes (60_exceptions.md R139, conflict C6). -/
def progMaxLen : Nat := 0xFFF - 0x200

/-- `NREGS` (10_state.md R10). -/
abbrev nregs : Nat := 16

/-- `STACK_DEPTH` (10_state.md R14). -/
abbrev stackDepth : Nat := 16

/-- `FB_W`: the framebuffer's columns (10_state.md R19). -/
abbrev fbW : Nat := 64

/-- `FB_H`: the framebuffer's rows (10_state.md R19). -/
abbrev fbH : Nat := 32

/-- `NKEYS` (10_state.md R18). -/
abbrev nkeys : Nat := 16

/-- FREE VALUE: the random byte `rnd` of the n-th CXNN that `step` executes when the host presents none
(45_random_keypad_timers.md R111). It has no body: nothing constrains it, so a claim holds for every value of every draw.
[log 1] -/
opaque rnd : Nat → Byte

end Sys2Proof.Config
end

