-- ==== Sys2Proof/Machine/State.lean ====
section
/-! DEFINITION. The machine's state, as plain data, its reasons to stop, and its state after reset (10_state.md R10 to R27, 70_reset_and_hazards.md R150). -/

namespace Sys2Proof.Machine

/-- Memory: the cells that differ from their reset contents, addresses strictly rising (the form is `Memory.wf` in
Machine/Memory.lean; what an unlisted address reads as is `resetByte` in Machine/Font.lean). [log 4] -/
abbrev Memory := List Host.Cell

/-- The framebuffer: 32 rows of 64 cells, row y, column x (R19). -/
abbrev Framebuffer := Vector (Vector Bool Config.fbW) Config.fbH

/-- The whole state (R26) and one field of the model's own. -/
structure State where
  /-- `V[0..15]` (R10); `V[15]` is the flag register VF (R11) -/
  v : Vector Byte Config.nregs
  /-- `I`, 16 bits, never masked to 12 (R12) -/
  i : Word
  /-- `pc`, 16 bits (R13) -/
  pc : Word
  /-- `STACK[0..15]` (R14) -/
  stack : Vector Word Config.stackDepth
  /-- `SP`, the number of return addresses, 0 to 16 (R15) [log 14] -/
  sp : Fin (Config.stackDepth + 1)
  /-- `DT` (R16) -/
  dt : Byte
  /-- `ST` (R17) -/
  st : Byte
  /-- `KEY[0..15]`, true when pressed (R18) -/
  key : Vector Bool Config.nkeys
  /-- `FB[y][x]`, true when lit (R19) -/
  fb : Framebuffer
  /-- `DRAW` (R20) -/
  drawFlag : Bool
  /-- `MEM[0..0xFFF]` (R21) -/
  mem : Memory
  /-- MODEL'S OWN: how many random bytes have been drawn; the next one is `Config.rnd rndCount` (R111) [log 1] -/
  rndCount : Nat
  deriving DecidableEq, Repr

/-- The six faults of 60_exceptions.md R122, with the info the rule says is reported: `pc`, the word, and `I` or `V[X]`.
A fault changes no state (R121). Each is safe: the step has no next state, so no claim about one can be proved from it. [log 5] -/
inductive Fault where
  /-- raised by Call when SP = 16 (R124); safe [log 11] -/
  | stackOverflow (pc word : Word)
  /-- raised by Return when SP = 0 (R125); safe [log 11] -/
  | stackUnderflow (pc word : Word)
  /-- raised by the fetch when pc > 0xFFE (R126); safe [log 12] -/
  | fetchOutOfRange (pc : Word)
  /-- raised by Draw (N >= 1), StoreBCD, StoreRegs, LoadRegs when the last address is above 0xFFF (R127); safe [log 10] -/
  | memOutOfRange (pc word i : Word)
  /-- raised by StoreBCD and StoreRegs when the written range meets the font region (R128); safe [log 10] -/
  | fontWrite (pc word i : Word)
  /-- raised by SkipKeyDown and SkipKeyUp when V[X] > 15 (R129); safe [log 13] -/
  | keyIndexOutOfRange (pc word : Word) (vx : Byte)
  deriving DecidableEq, Repr

/-- Why an instruction is refused. No instruction of this model is. -/
inductive Refusal where
  /-- raised by an arm of `exec` whose instruction has no meaning yet (there is none); safe -/
  | notModelled (mnemonic : String)
  deriving DecidableEq, Repr

/-- What an instruction answers. -/
abbrev Outcome := Host.Outcome State Fault Refusal

/-- The state after `reset()` (R27, R150): everything zero but `pc` and the font, which is what unlisted memory reads as. -/
def State.reset : State where
  v := Vector.replicate Config.nregs 0
  i := 0
  pc := 0x200
  stack := Vector.replicate Config.stackDepth 0
  sp := 0
  dt := 0
  st := 0
  key := Vector.replicate Config.nkeys false
  fb := Vector.replicate Config.fbH (Vector.replicate Config.fbW false)
  drawFlag := false
  mem := []
  rndCount := 0

end Sys2Proof.Machine
end

