-- ==== Sys2Proof/Machine/Flags.lean ====
section
/-! DEFINITION. Every flag computation: the byte, 0x00 or 0x01, that goes to VF (10_state.md R11, 43_alu.md R85). -/

namespace Sys2Proof.Machine

/-- A flag is stored as 0 or 1 in all 8 bits (R11). -/
def flagByte (b : Bool) : Byte := if b then 1 else 0

/-- AddC: the carry out of bit 7, `sum > 255` (R85, R92). -/
def carryFlag (a b : Byte) : Byte := flagByte (decide (a.toNat + b.toNat > 255))

/-- SubB, SubBRev: 1 when `a - b` needs no borrow, `a >= b`, equality included (R85, R93, R95). -/
def noBorrowFlag (a b : Byte) : Byte := flagByte (decide (a.toNat ≥ b.toNat))

/-- Shr: the bit shifted out, old bit 0 (R94). -/
def shrFlag (a : Byte) : Byte := a &&& 1

/-- Shl: the bit shifted out, old bit 7, stored as 0 or 1 (R96). -/
def shlFlag (a : Byte) : Byte := flagByte (decide (a &&& 0x80 ≠ 0))

end Sys2Proof.Machine
end

