-- ==== Sys2Proof/Syntax.lean ====
section
/-! DEFINITION. The instruction set: one constructor per row of spec/opcode_table.json, in the table's order (30_encoding.md R58). -/

namespace Sys2Proof

/-- The 34 instructions of 30_encoding.md R58. `x`, `y` are the register fields, `nn` the 8-bit and `nnn` the 12-bit
immediate (R56). `Shr` and `Shl` keep the field `y` that their meaning ignores, so that no bit of the word is lost (R64).
The row count of `Draw` is a number that `Instr.WellFormed` bounds by 15. [log 18] -/
inductive Instr where
  | clear
  | ret
  | jump (nnn : Addr12)
  | call (nnn : Addr12)
  | skipEqN (x : Reg) (nn : Byte)
  | skipNeN (x : Reg) (nn : Byte)
  | skipEqV (x y : Reg)
  | loadN (x : Reg) (nn : Byte)
  | addN (x : Reg) (nn : Byte)
  | move (x y : Reg)
  | or (x y : Reg)
  | and (x y : Reg)
  | xor (x y : Reg)
  | addC (x y : Reg)
  | subB (x y : Reg)
  | shr (x y : Reg)
  | subBRev (x y : Reg)
  | shl (x y : Reg)
  | skipNeV (x y : Reg)
  | loadI (nnn : Addr12)
  | jumpOffset (nnn : Addr12)
  | rand (x : Reg) (nn : Byte)
  | draw (x y : Reg) (n : Nat)
  | skipKeyDown (x : Reg)
  | skipKeyUp (x : Reg)
  | readDelay (x : Reg)
  | waitKey (x : Reg)
  | writeDelay (x : Reg)
  | writeSound (x : Reg)
  | addIndex (x : Reg)
  | loadFont (x : Reg)
  | storeBCD (x : Reg)
  | storeRegs (x : Reg)
  | loadRegs (x : Reg)
  deriving DecidableEq, Repr

end Sys2Proof
end

