-- ==== Sys2Proof/WellFormed.lean ====
section
/-! DEFINITION. Which terms of `Instr` are instructions of the machine: the operands whose Lean type does not already bound them. -/

namespace Sys2Proof

/-- `N` is a 4-bit field, a row count 0 to 15 (30_encoding.md R56, R63). Every other operand is bounded by its type. -/
def Instr.wellFormed : Instr → Bool
  | .draw _ _ n => n < 16
  | .clear | .ret => true
  | .jump _ | .call _ | .loadI _ | .jumpOffset _ => true
  | .skipEqN _ _ | .skipNeN _ _ | .loadN _ _ | .addN _ _ | .rand _ _ => true
  | .skipEqV _ _ | .skipNeV _ _ | .move _ _ | .or _ _ | .and _ _ | .xor _ _ => true
  | .addC _ _ | .subB _ _ | .shr _ _ | .subBRev _ _ | .shl _ _ => true
  | .skipKeyDown _ | .skipKeyUp _ | .readDelay _ | .waitKey _ | .writeDelay _ | .writeSound _ => true
  | .addIndex _ | .loadFont _ | .storeBCD _ | .storeRegs _ | .loadRegs _ => true

/-- The instruction is one the encoding can express. -/
abbrev Instr.WellFormed (i : Instr) : Prop := i.wellFormed = true

end Sys2Proof
end

