-- ==== Sys2Proof/Decode.lean ====
section
/-! DEFINITION. Instruction words: fields, the opcode map, the decoder, the encoder and the notation (30_encoding.md R55 to R66). -/

namespace Sys2Proof

/-! ## Bytes and words -/

/-- Two bytes as one big-endian word, `high * 256 + low` (20_memory.md R37). -/
def wordOfBytes (hi lo : Byte) : Word := BitVec.ofNat 16 (hi.toNat * 256 + lo.toNat)

/-- Bits 15:8 of a word. -/
def highByte (w : Word) : Byte := BitVec.ofNat 8 (w.toNat / 256)

/-- Bits 7:0 of a word. -/
def lowByte (w : Word) : Byte := BitVec.ofNat 8 w.toNat

/-- A word as it lies in memory, high byte first (20_memory.md R37). -/
def wordBytes (w : Word) : List Byte := [highByte w, lowByte w]

/-! ## Fields (R56) -/

/-- `F = w[15:12]`, the top nibble. -/
def fieldF (w : Word) : Nat := w.toNat / 4096

/-- `X = w[11:8]`. -/
def fieldX (w : Word) : Reg := ⟨w.toNat / 256 % 16, Nat.mod_lt _ (by decide)⟩

/-- `Y = w[7:4]`. -/
def fieldY (w : Word) : Reg := ⟨w.toNat / 16 % 16, Nat.mod_lt _ (by decide)⟩

/-- `N = w[3:0]`. -/
def fieldN (w : Word) : Nat := w.toNat % 16

/-- `NN = w[7:0]`. -/
def fieldNN (w : Word) : Byte := BitVec.ofNat 8 w.toNat

/-- `NNN = w[11:0]`. -/
def fieldNNN (w : Word) : Addr12 := BitVec.ofNat 12 w.toNat

/-! ## The decoder (R57, R58, R60) -/

/-- Why bytes give no instruction. -/
inductive DecodeError where
  /-- fewer than two bytes: no word (R55: an instruction is always 2 bytes) -/
  | truncated
  /-- the word matches no row of the opcode map (R60) -/
  | unknownWord (w : Word)
  deriving DecidableEq, Repr

/-- The 8-family, keyed by the last digit (R58, 43_alu.md R98). -/
def decodeFamily8 (w : Word) : Except DecodeError Instr :=
  match fieldN w with
  | 0x0 => .ok (.move (fieldX w) (fieldY w))
  | 0x1 => .ok (.or (fieldX w) (fieldY w))
  | 0x2 => .ok (.and (fieldX w) (fieldY w))
  | 0x3 => .ok (.xor (fieldX w) (fieldY w))
  | 0x4 => .ok (.addC (fieldX w) (fieldY w))
  | 0x5 => .ok (.subB (fieldX w) (fieldY w))
  | 0x6 => .ok (.shr (fieldX w) (fieldY w))
  | 0x7 => .ok (.subBRev (fieldX w) (fieldY w))
  | 0xE => .ok (.shl (fieldX w) (fieldY w))
  | _   => .error (.unknownWord w)

/-- The E-family, keyed by the low byte (R58). -/
def decodeFamilyE (w : Word) : Except DecodeError Instr :=
  if fieldNN w = 0x9E then .ok (.skipKeyDown (fieldX w))
  else if fieldNN w = 0xA1 then .ok (.skipKeyUp (fieldX w))
  else .error (.unknownWord w)

/-- The F-family, keyed by the low byte (R58). -/
def decodeFamilyF (w : Word) : Except DecodeError Instr :=
  if fieldNN w = 0x07 then .ok (.readDelay (fieldX w))
  else if fieldNN w = 0x0A then .ok (.waitKey (fieldX w))
  else if fieldNN w = 0x15 then .ok (.writeDelay (fieldX w))
  else if fieldNN w = 0x18 then .ok (.writeSound (fieldX w))
  else if fieldNN w = 0x1E then .ok (.addIndex (fieldX w))
  else if fieldNN w = 0x29 then .ok (.loadFont (fieldX w))
  else if fieldNN w = 0x33 then .ok (.storeBCD (fieldX w))
  else if fieldNN w = 0x55 then .ok (.storeRegs (fieldX w))
  else if fieldNN w = 0x65 then .ok (.loadRegs (fieldX w))
  else .error (.unknownWord w)

/-- The decode procedure of R57: the top nibble first, then every other literal digit of the encodings of R58.
A word that matches none is rejected as unknown (R60). [log 6] -/
def decodeWord (w : Word) : Except DecodeError Instr :=
  match fieldF w with
  | 0x0 =>
    if w = 0x00E0 then .ok .clear
    else if w = 0x00EE then .ok .ret
    else .error (.unknownWord w)
  | 0x1 => .ok (.jump (fieldNNN w))
  | 0x2 => .ok (.call (fieldNNN w))
  | 0x3 => .ok (.skipEqN (fieldX w) (fieldNN w))
  | 0x4 => .ok (.skipNeN (fieldX w) (fieldNN w))
  | 0x5 => if fieldN w = 0 then .ok (.skipEqV (fieldX w) (fieldY w)) else .error (.unknownWord w)
  | 0x6 => .ok (.loadN (fieldX w) (fieldNN w))
  | 0x7 => .ok (.addN (fieldX w) (fieldNN w))
  | 0x8 => decodeFamily8 w
  | 0x9 => if fieldN w = 0 then .ok (.skipNeV (fieldX w) (fieldY w)) else .error (.unknownWord w)
  | 0xA => .ok (.loadI (fieldNNN w))
  | 0xB => .ok (.jumpOffset (fieldNNN w))
  | 0xC => .ok (.rand (fieldX w) (fieldNN w))
  | 0xD => .ok (.draw (fieldX w) (fieldY w) (fieldN w))
  | 0xE => decodeFamilyE w
  | _   => decodeFamilyF w

/-- The decoder on bytes: the instruction of the first two, and the bytes after them (R55). -/
def decode : List Byte → Except DecodeError (Instr × List Byte)
  | hi :: lo :: rest =>
    match decodeWord (wordOfBytes hi lo) with
    | .ok i => .ok (i, rest)
    | .error e => .error e
  | _ => .error .truncated

/-! ## The encoder, from the same tables (R58, R59) -/

/-- Format `NNN`: the family and a 12-bit address. -/
def encodeNNN (f : Nat) (nnn : Addr12) : Word := BitVec.ofNat 16 (f * 4096 + nnn.toNat)

/-- Formats `XNN` and `X__`: the family, a register and a low byte. -/
def encodeXNN (f : Nat) (x : Reg) (nn : Byte) : Word := BitVec.ofNat 16 (f * 4096 + x.val * 256 + nn.toNat)

/-- Formats `XY_` and `XYN`: the family, two registers and a last digit. -/
def encodeXYN (f : Nat) (x y : Reg) (n : Nat) : Word := BitVec.ofNat 16 (f * 4096 + x.val * 256 + y.val * 16 + n)

/-- The word of a well-formed instruction (R58). -/
def encode : Instr → Word
  | .clear            => 0x00E0
  | .ret              => 0x00EE
  | .jump nnn         => encodeNNN 0x1 nnn
  | .call nnn         => encodeNNN 0x2 nnn
  | .skipEqN x nn     => encodeXNN 0x3 x nn
  | .skipNeN x nn     => encodeXNN 0x4 x nn
  | .skipEqV x y      => encodeXYN 0x5 x y 0x0
  | .loadN x nn       => encodeXNN 0x6 x nn
  | .addN x nn        => encodeXNN 0x7 x nn
  | .move x y         => encodeXYN 0x8 x y 0x0
  | .or x y           => encodeXYN 0x8 x y 0x1
  | .and x y          => encodeXYN 0x8 x y 0x2
  | .xor x y          => encodeXYN 0x8 x y 0x3
  | .addC x y         => encodeXYN 0x8 x y 0x4
  | .subB x y         => encodeXYN 0x8 x y 0x5
  | .shr x y          => encodeXYN 0x8 x y 0x6
  | .subBRev x y      => encodeXYN 0x8 x y 0x7
  | .shl x y          => encodeXYN 0x8 x y 0xE
  | .skipNeV x y      => encodeXYN 0x9 x y 0x0
  | .loadI nnn        => encodeNNN 0xA nnn
  | .jumpOffset nnn   => encodeNNN 0xB nnn
  | .rand x nn        => encodeXNN 0xC x nn
  | .draw x y n       => encodeXYN 0xD x y n
  | .skipKeyDown x    => encodeXNN 0xE x 0x9E
  | .skipKeyUp x      => encodeXNN 0xE x 0xA1
  | .readDelay x      => encodeXNN 0xF x 0x07
  | .waitKey x        => encodeXNN 0xF x 0x0A
  | .writeDelay x     => encodeXNN 0xF x 0x15
  | .writeSound x     => encodeXNN 0xF x 0x18
  | .addIndex x       => encodeXNN 0xF x 0x1E
  | .loadFont x       => encodeXNN 0xF x 0x29
  | .storeBCD x       => encodeXNN 0xF x 0x33
  | .storeRegs x      => encodeXNN 0xF x 0x55
  | .loadRegs x       => encodeXNN 0xF x 0x65

/-- The bytes of an instruction as they lie in memory. -/
def encodeBytes (i : Instr) : List Byte := wordBytes (encode i)

/-! ## The opcode map as the spec prints it (R58) -/

/-- The formats of R59, named after the fields they carry. -/
inductive Format where
  | fixed | nnn | xnn | xy | xyn | x
  deriving DecidableEq, Repr

/-- One row of R58: a word is this instruction exactly when `word & mask = value`. -/
structure OpcodeRow where
  name   : String
  mask   : Word
  value  : Word
  format : Format
  deriving DecidableEq, Repr

/-- R58's rows for the families 0 to 7. -/
def opcodeMapLow : List OpcodeRow :=
  [ ⟨"Clear",   0xFFFF, 0x00E0, .fixed⟩,
    ⟨"Return",  0xFFFF, 0x00EE, .fixed⟩,
    ⟨"Jump",    0xF000, 0x1000, .nnn⟩,
    ⟨"Call",    0xF000, 0x2000, .nnn⟩,
    ⟨"SkipEqN", 0xF000, 0x3000, .xnn⟩,
    ⟨"SkipNeN", 0xF000, 0x4000, .xnn⟩,
    ⟨"SkipEqV", 0xF00F, 0x5000, .xy⟩,
    ⟨"LoadN",   0xF000, 0x6000, .xnn⟩,
    ⟨"AddN",    0xF000, 0x7000, .xnn⟩ ]

/-- R58's rows for the 8-family. -/
def opcodeMapAlu : List OpcodeRow :=
  [ ⟨"Move",    0xF00F, 0x8000, .xy⟩,
    ⟨"Or",      0xF00F, 0x8001, .xy⟩,
    ⟨"And",     0xF00F, 0x8002, .xy⟩,
    ⟨"Xor",     0xF00F, 0x8003, .xy⟩,
    ⟨"AddC",    0xF00F, 0x8004, .xy⟩,
    ⟨"SubB",    0xF00F, 0x8005, .xy⟩,
    ⟨"Shr",     0xF00F, 0x8006, .xy⟩,
    ⟨"SubBRev", 0xF00F, 0x8007, .xy⟩,
    ⟨"Shl",     0xF00F, 0x800E, .xy⟩ ]

/-- R58's rows for the families 9 to F. -/
def opcodeMapHigh : List OpcodeRow :=
  [ ⟨"SkipNeV",     0xF00F, 0x9000, .xy⟩,
    ⟨"LoadI",       0xF000, 0xA000, .nnn⟩,
    ⟨"JumpOffset",  0xF000, 0xB000, .nnn⟩,
    ⟨"Rand",        0xF000, 0xC000, .xnn⟩,
    ⟨"Draw",        0xF000, 0xD000, .xyn⟩,
    ⟨"SkipKeyDown", 0xF0FF, 0xE09E, .x⟩,
    ⟨"SkipKeyUp",   0xF0FF, 0xE0A1, .x⟩,
    ⟨"ReadDelay",   0xF0FF, 0xF007, .x⟩,
    ⟨"WaitKey",     0xF0FF, 0xF00A, .x⟩,
    ⟨"WriteDelay",  0xF0FF, 0xF015, .x⟩,
    ⟨"WriteSound",  0xF0FF, 0xF018, .x⟩,
    ⟨"AddIndex",    0xF0FF, 0xF01E, .x⟩,
    ⟨"LoadFont",    0xF0FF, 0xF029, .x⟩,
    ⟨"StoreBCD",    0xF0FF, 0xF033, .x⟩,
    ⟨"StoreRegs",   0xF0FF, 0xF055, .x⟩,
    ⟨"LoadRegs",    0xF0FF, 0xF065, .x⟩ ]

/-- The 34 rows of R58, in its order. -/
def opcodeMap : List OpcodeRow := opcodeMapLow ++ opcodeMapAlu ++ opcodeMapHigh

/-- The row's test of a word, `word & mask == match` (R57). -/
def OpcodeRow.matches (r : OpcodeRow) (w : Word) : Bool := w &&& r.mask == r.value

/-! ## Notation (R64): the Name and the operands in field order -/

/-- An operand as R64 writes it. -/
inductive Operand where
  | reg (r : Reg)
  | imm4 (n : Nat)
  | imm8 (nn : Byte)
  | imm12 (nnn : Addr12)
  deriving DecidableEq, Repr

/-- The Name column of R58. -/
def Instr.name : Instr → String
  | .clear => "Clear" | .ret => "Return" | .jump _ => "Jump" | .call _ => "Call"
  | .skipEqN _ _ => "SkipEqN" | .skipNeN _ _ => "SkipNeN" | .skipEqV _ _ => "SkipEqV"
  | .loadN _ _ => "LoadN" | .addN _ _ => "AddN" | .move _ _ => "Move" | .or _ _ => "Or"
  | .and _ _ => "And" | .xor _ _ => "Xor" | .addC _ _ => "AddC" | .subB _ _ => "SubB"
  | .shr _ _ => "Shr" | .subBRev _ _ => "SubBRev" | .shl _ _ => "Shl" | .skipNeV _ _ => "SkipNeV"
  | .loadI _ => "LoadI" | .jumpOffset _ => "JumpOffset" | .rand _ _ => "Rand" | .draw _ _ _ => "Draw"
  | .skipKeyDown _ => "SkipKeyDown" | .skipKeyUp _ => "SkipKeyUp" | .readDelay _ => "ReadDelay"
  | .waitKey _ => "WaitKey" | .writeDelay _ => "WriteDelay" | .writeSound _ => "WriteSound"
  | .addIndex _ => "AddIndex" | .loadFont _ => "LoadFont" | .storeBCD _ => "StoreBCD"
  | .storeRegs _ => "StoreRegs" | .loadRegs _ => "LoadRegs"

/-- The operands, from bit 11 downward (R64). [log 20] -/
def Instr.operands : Instr → List Operand
  | .clear | .ret => []
  | .jump nnn | .call nnn | .loadI nnn | .jumpOffset nnn => [.imm12 nnn]
  | .skipEqN x nn | .skipNeN x nn | .loadN x nn | .addN x nn | .rand x nn => [.reg x, .imm8 nn]
  | .skipEqV x y | .skipNeV x y | .move x y | .or x y | .and x y | .xor x y => [.reg x, .reg y]
  | .addC x y | .subB x y | .shr x y | .subBRev x y | .shl x y => [.reg x, .reg y]
  | .draw x y n => [.reg x, .reg y, .imm4 n]
  | .skipKeyDown x | .skipKeyUp x | .readDelay x | .waitKey x | .writeDelay x | .writeSound x => [.reg x]
  | .addIndex x | .loadFont x | .storeBCD x | .storeRegs x | .loadRegs x => [.reg x]

/-- A piece of a program text (R65): an instruction or literal bytes. -/
inductive Item where
  | instr (i : Instr)
  | bytes (bs : List Byte)
  deriving DecidableEq, Repr

/-- The image of a program text, at ascending addresses (R65). -/
def assemble : List Item → List Byte
  | [] => []
  | .instr i :: rest => encodeBytes i ++ assemble rest
  | .bytes bs :: rest => bs ++ assemble rest

/-! ## The host's view of a table word -/

/-- The bytes of the instruction whose bits are `w`, bit 0 the least significant bit of its one word; bits at and above
`nbits` are 0. -/
def tableBytes (nbits w : Nat) : List Byte := wordBytes (BitVec.ofNat 16 (w % 2 ^ nbits))

/-- What the decoder reads from the instruction whose bits are `w`. -/
def decodeTableWord (nbits w : Nat) : Option Instr :=
  match decode (tableBytes nbits w) with
  | .ok (i, _) => some i
  | .error _ => none

end Sys2Proof
end

