-- ==== Sys2Proof/Machine/Font.lean ====
section
/-! DEFINITION. The font and the reset contents of memory (10_state.md R21 to R23). -/

namespace Sys2Proof.Machine

/-- `FONT_BASE` (R22, decision D11). [log 3] -/
def fontBase : Nat := 0x050

/-- The font region's size: 16 glyphs of 5 bytes (R22). -/
def fontSize : Nat := 80

/-- The glyphs of the digits 0 to 7 (R23, from general knowledge: D12). [log 2] -/
def fontLow : List Byte :=
  [0xF0, 0x90, 0x90, 0x90, 0xF0,
   0x20, 0x60, 0x20, 0x20, 0x70,
   0xF0, 0x10, 0xF0, 0x80, 0xF0,
   0xF0, 0x10, 0xF0, 0x10, 0xF0,
   0x90, 0x90, 0xF0, 0x10, 0x10,
   0xF0, 0x80, 0xF0, 0x10, 0xF0,
   0xF0, 0x80, 0xF0, 0x90, 0xF0,
   0xF0, 0x10, 0x20, 0x40, 0x40]

/-- The glyphs of the digits 8 to F (R23, from general knowledge: D12). [log 2] -/
def fontHigh : List Byte :=
  [0xF0, 0x90, 0xF0, 0x90, 0xF0,
   0xF0, 0x90, 0xF0, 0x10, 0xF0,
   0xF0, 0x90, 0xF0, 0x90, 0x90,
   0xE0, 0x90, 0xE0, 0x90, 0xE0,
   0xF0, 0x80, 0x80, 0x80, 0xF0,
   0xE0, 0x90, 0x90, 0x90, 0xE0,
   0xF0, 0x80, 0xF0, 0x80, 0xF0,
   0xF0, 0x80, 0xF0, 0x80, 0x80]

/-- `FONT` (R23). [log 2] -/
def font : List Byte := fontLow ++ fontHigh

/-- The address lies in the font region `[FONT_BASE, FONT_BASE + 79]` (R22). -/
def inFont (a : Nat) : Bool := fontBase ≤ a && a < fontBase + fontSize

/-- What a cell holds after `reset` (R21, R27): the font's byte in the font region, 0 elsewhere. Memory lists only the
cells that differ from this. -/
def resetByte (a : Nat) : Byte := if inFont a then font.getD (a - fontBase) 0 else 0

end Sys2Proof.Machine
end

