-- ==== Sys2Proof/Machine/Operands.lean ====
section
/-! DEFINITION. The operand forms: registers, immediates, memory at `I + offset`, key numbers (30_encoding.md R63, 44_index_memory.md R100). -/

namespace Sys2Proof.Machine

/-- `V[r]` (10_state.md R10). -/
def State.reg (s : State) (r : Reg) : Byte := s.v[r.val]

/-- `NNN` as a 16-bit value, bits 15:12 zero (R63). -/
def addrOf (nnn : Addr12) : Word := nnn.zeroExtend 16

/-- A byte as a 16-bit value, high bits zero: all values are unsigned (00_scope.md R5). -/
def zext (b : Byte) : Word := b.zeroExtend 16

/-- The effective address `I + offset`, an integer formed without wrap-around or masking (R100, 20_memory.md R52). -/
def dataAddr (s : State) (offset : Nat) : Nat := s.i.toNat + offset

/-- The access of `n` bytes from `I` runs past 0xFFF (20_memory.md R40); an access of no byte never does. -/
def pastMemory (s : State) (n : Nat) : Bool := 0 < n && dataAddr s (n - 1) ≥ Config.memSize

/-- The range of `n` bytes from `I` meets the font region (20_memory.md R41). -/
def meetsFont (s : State) (n : Nat) : Bool :=
  0 < n && dataAddr s 0 < fontBase + fontSize && fontBase ≤ dataAddr s (n - 1)

/-- The key a register value names: the whole byte is the index, 0 to 15 (45_random_keypad_timers.md R112). -/
def keyOf (b : Byte) : Option (Fin Config.nkeys) := if h : b.toNat < Config.nkeys then some ⟨b.toNat, h⟩ else none

/-- The three decimal digits of a byte, hundreds first (44_index_memory.md R104). -/
def bcdDigits (b : Byte) : List Byte :=
  [BitVec.ofNat 8 (b.toNat / 100), BitVec.ofNat 8 (b.toNat / 10 % 10), BitVec.ofNat 8 (b.toNat % 10)]

/-- The glyph address `FONT_BASE + 5 * V[X]`, the register value used whole (44_index_memory.md R103). [log 3] -/
def glyphAddr (b : Byte) : Word := BitVec.ofNat 16 (fontBase + 5 * b.toNat)

/-- The pixel of a sprite byte at column `col`, bit 7 leftmost (40_display.md R70). -/
def spritePixel (b : Byte) (col : Nat) : Bool := (b >>> (7 - col)) &&& 1 == 1

end Sys2Proof.Machine
end

