-- ==== Sys2Proof/Machine/Ops.lean ====
section
/-! DEFINITION. The named operations over the state that the meanings share. -/

namespace Sys2Proof.Machine

/-! ## Registers and pc -/

/-- `V[r] <- b` (10_state.md R10). -/
def State.setReg (s : State) (r : Reg) (b : Byte) : State := { s with v := s.v.set r.val b }

/-- `V[k] <- bs[0]`, `V[k+1] <- bs[1]`, ... ascending; bytes past V15 have no register. -/
def setRegsFrom : Vector Byte 16 → Nat → List Byte → Vector Byte 16
  | v, _, [] => v
  | v, k, b :: bs => setRegsFrom (v.setIfInBounds k b) (k + 1) bs

/-- `pc <- pc + 2` (10_state.md R13). -/
def State.advance (s : State) : State := { s with pc := s.pc + 2 }

/-- A conditional skip: `pc + 4` when the condition holds, else `pc + 2` (42_skip.md R80). -/
def State.skipIf (s : State) (c : Bool) : State := { s with pc := if c then s.pc + 4 else s.pc + 2 }

/-- `pc <- target`, absolute (41_flow.md R75). -/
def State.jumpTo (s : State) (target : Word) : State := { s with pc := target }

/-! ## Faults -/

/-- TAKING A FAULT, the one operation of all six: the step ends with the status and no state is changed (00_scope.md
R7, 60_exceptions.md R121). There is no trap entry to take (no handler, saved pc or mode: R134) and so no return from
one (R135). [log 5] -/
def raise (f : Fault) : Outcome := .fault f

/-! ## The decided policies (00_scope.md R4): each the value the spec gives it. No alternative is modelled, and another
value is another body here. -/

/-- `UNKNOWN_POLICY`: `pc` advances by 2 and nothing else changes; the report is `nextStatus`'s (60_exceptions.md R123,
D2). [log 6] -/
def unknownPolicy (s : State) : Outcome := .next s.advance

/-- `STACK_OVERFLOW_POLICY = fault` (41_flow.md R78, D4). [log 11] -/
def stackOverflowPolicy (s : State) (word : Word) : Outcome := raise (.stackOverflow s.pc word)

/-- `MEM_RANGE_POLICY = fault` (20_memory.md R40, D6). [log 10] -/
def memRangePolicy (s : State) (word : Word) : Outcome := raise (.memOutOfRange s.pc word s.i)

/-- `FONT_WRITE_POLICY = fault` (20_memory.md R41, D13). [log 10] -/
def fontWritePolicy (s : State) (word : Word) : Outcome := raise (.fontWrite s.pc word s.i)

/-- `DRAW_EDGE = wrap`: the column or row that a sprite pixel's coordinate falls on, modulo the screen's size
(40_display.md R72, D8); under another policy a pixel may fall on none. [log 7] -/
def drawEdge (size : Nat) [NeZero size] (n : Nat) : Option (Fin size) := some (Fin.ofNat size n)

/-- `FX1E_SETS_VF = no` (44_index_memory.md R102, D10). [log 9] -/
def fx1eSetsVF : Bool := false

/-- What FX1E does to VF when the sum is `sum`: where the policy says so, VF is set on a sum past 12 bits (R102). [log 9] -/
def State.indexFlag (s : State) (sum : Nat) : State :=
  if fx1eSetsVF && decide (0xFFF < sum) then s.setReg regVF 1 else s

/-! ## The checks of an access through `I` -/

/-- An access of `n` bytes from `I` that reads: the range check, then the access (20_memory.md R40). [log 10] -/
def withReadable (s : State) (word : Word) (n : Nat) (go : Outcome) : Outcome :=
  if pastMemory s n then memRangePolicy s word else go

/-- An access of `n` bytes from `I` that writes: the range check, the font-region check, then the access
(20_memory.md R40, R41, in that order: 60_exceptions.md R130). [log 10] -/
def withWritable (s : State) (word : Word) (n : Nat) (go : Outcome) : Outcome :=
  withReadable s word n (if meetsFont s n then fontWritePolicy s word else go)

/-! ## The call stack (10_state.md R14, R15) -/

/-- `STACK[SP] <- pc; SP <- SP + 1`, or nothing to answer when the stack is full (41_flow.md R78). -/
def State.pushPc (s : State) : Option State :=
  if h : s.sp.val < Config.stackDepth then
    some { s with stack := s.stack.set s.sp.val s.pc h, sp := ⟨s.sp.val + 1, Nat.succ_lt_succ h⟩ }
  else none

/-- `SP <- SP - 1`, with the slot that is now free, or nothing when the stack is empty (41_flow.md R76). The slot keeps
its value. -/
def State.pop (s : State) : Option (Word × State) :=
  if h : s.sp.val = 0 then none
  else some (s.stack[s.sp.val - 1]'(by have := s.sp.isLt; omega),
    { s with sp := ⟨s.sp.val - 1, by have := s.sp.isLt; omega⟩ })

/-! ## Memory -/

/-- `n` bytes at `I`, ascending (44_index_memory.md R100). -/
def State.readAtI (s : State) (n : Nat) : List Byte := s.mem.readBytes (dataAddr s 0) n

/-- Bytes stored at `I`, ascending; `I` itself is not changed (44_index_memory.md R107). -/
def State.writeAtI (s : State) (bs : List Byte) : State := { s with mem := s.mem.writeBytes (dataAddr s 0) bs }

/-! ## The keypad (10_state.md R18) -/

/-- `KEY[k]`. -/
def State.keyDown (s : State) (k : Fin Config.nkeys) : Bool := s.key[k.val]

/-- `KEY[k] <- pressed`. -/
def State.setKeyCell (s : State) (k : Fin Config.nkeys) (pressed : Bool) : State := { s with key := s.key.set k.val pressed }

/-- The 16 keys in ascending order. -/
def allKeys : List (Fin Config.nkeys) := [0, 1, 2, 3, 4, 5, 6, 7, 8, 9, 10, 11, 12, 13, 14, 15]

/-- The first pressed key in ascending order (45_random_keypad_timers.md R115, decision D15). [log 13] -/
def State.firstKey (s : State) : Option (Fin Config.nkeys) := allKeys.find? s.keyDown

/-! ## The random input -/

/-- The byte that the next CXNN reads when the host presents none: a free value (45_random_keypad_timers.md R111). [log 1] -/
def State.rndByte (s : State) : Byte := Config.rnd s.rndCount

/-- That byte is used up: the next CXNN reads the next free value. [log 1] -/
def State.rndDrawn (s : State) : State := { s with rndCount := s.rndCount + 1 }

/-- CXNN with the input `rnd`: `V[X] <- rnd & NN; pc <- pc + 2` (R111). -/
def randWith (rnd : Byte) (x : Reg) (nn : Byte) (s : State) : Outcome := .next (s.setReg x (rnd &&& nn)).advance

/-! ## The framebuffer (10_state.md R19, R20) -/

/-- `FB[y][x]`. -/
def Framebuffer.pixel (fb : Framebuffer) (x : Fin Config.fbW) (y : Fin Config.fbH) : Bool := fb[y.val][x.val]

/-- `FB[y][x] <- FB[y][x] ^ 1`. -/
def Framebuffer.toggle (fb : Framebuffer) (x : Fin Config.fbW) (y : Fin Config.fbH) : Framebuffer :=
  fb.set y.val (fb[y.val].set x.val (!fb[y.val][x.val]))

/-- Every cell 0. -/
def Framebuffer.blank : Framebuffer := Vector.replicate Config.fbH (Vector.replicate Config.fbW false)

/-- What a Draw changes pixel by pixel: the framebuffer and VF. -/
structure Canvas where
  fb : Framebuffer
  vf : Byte
  deriving DecidableEq, Repr

/-- One sprite pixel of value 1 drawn at a cell: VF becomes 1 if the cell was set, and the cell is toggled (40_display.md R72). -/
def Canvas.plot (c : Canvas) (x : Fin Config.fbW) (y : Fin Config.fbH) : Canvas where
  fb := c.fb.toggle x y
  vf := if c.fb.pixel x y then 1 else c.vf

/-- One sprite pixel of value 1 at a coordinate, which the edge policy places on a cell or on none. [log 7] -/
def Canvas.plotAt (c : Canvas) (x0 y0 : Nat) : Canvas :=
  match drawEdge Config.fbW x0, drawEdge Config.fbH y0 with
  | some x, some y => c.plot x y
  | _, _ => c

/-- One sprite byte, columns 0 to 7 ascending, from column `x0` of row `y0` (40_display.md R72). -/
def Canvas.drawByte (c : Canvas) (b : Byte) (x0 y0 : Nat) : Canvas :=
  (List.range 8).foldl (fun c col => if spritePixel b col then c.plotAt (x0 + col) y0 else c) c

/-- The sprite's bytes, rows ascending, from row `y0` (40_display.md R72). -/
def Canvas.drawRows : Canvas → List Byte → Nat → Nat → Canvas
  | c, [], _, _ => c
  | c, b :: bs, x0, y0 => Canvas.drawRows (c.drawByte b x0 y0) bs x0 (y0 + 1)

/-! ## Fetch -/

/-- The word at `pc`, or nothing when `pc > 0xFFE` (20_memory.md R37, R42). An odd `pc` is fetched like any other (R39). [log 12] -/
def fetch (s : State) : Option Word :=
  if s.pc.toNat + 1 < Config.memSize then some (s.mem.readWord s.pc.toNat) else none

/-- Fetch, decode, execute, with the checks in the order of 60_exceptions.md R130: fetch range, decode, and the
instruction's own in `run` (R140). -/
def fetchThen (run : Instr → State → Outcome) (s : State) : Outcome :=
  match fetch s with
  | none => raise (.fetchOutOfRange s.pc)
  | some w =>
    match decodeWord w with
    | .ok i => run i s
    | .error _ => unknownPolicy s

/-- The state with the bytes of an instruction stored where the next fetch reads them; a `pc` that no fetch can use is
first set to 0x200. [log 15] -/
def placeAtPc (s : State) (bs : List Byte) : State :=
  if s.pc.toNat + 1 < Config.memSize then { s with mem := s.mem.writeBytes s.pc.toNat bs }
  else { s with pc := BitVec.ofNat 16 Config.progBase, mem := s.mem.writeBytes Config.progBase bs }

end Sys2Proof.Machine
end

