-- ==== Sys2Proof/Machine/Alu.lean ====
section
/-! DEFINITION. Register load and arithmetic (43_alu.md). 8-bit results wrap modulo 256 (R85). Where an instruction
writes VF as a flag, the flag is written first and the result second, each statement reading what the one before it
wrote (00_scope.md R9, R97). [log 8] -/

namespace Sys2Proof.Machine

/-- `V[X] <- b; pc <- pc + 2`. -/
def loadResult (x : Reg) (b : Byte) (s : State) : Outcome := .next (s.setReg x b).advance

/-- `V[15] <- flag`, then `V[X] <- result`, computed in the state the flag write left, then `pc <- pc + 2` (R97). -/
def flagThenResult (flag : Byte) (x : Reg) (result : State → Byte) (s : State) : Outcome :=
  loadResult x (result (s.setReg regVF flag)) (s.setReg regVF flag)

/-- 6XNN LoadN (R86). -/
def execLoadN (x : Reg) (nn : Byte) (s : State) : Outcome := loadResult x nn s

/-- 7XNN AddN (R87): no flag. -/
def execAddN (x : Reg) (nn : Byte) (s : State) : Outcome := loadResult x (s.reg x + nn) s

/-- 8XY0 Move (R88). -/
def execMove (x y : Reg) (s : State) : Outcome := loadResult x (s.reg y) s

/-- 8XY1 Or (R89): VF left as it was. -/
def execOr (x y : Reg) (s : State) : Outcome := loadResult x (s.reg x ||| s.reg y) s

/-- 8XY2 And (R90): VF left as it was. -/
def execAnd (x y : Reg) (s : State) : Outcome := loadResult x (s.reg x &&& s.reg y) s

/-- 8XY3 Xor (R91): VF left as it was. -/
def execXor (x y : Reg) (s : State) : Outcome := loadResult x (s.reg x ^^^ s.reg y) s

/-- 8XY4 AddC (R92): both operands are read before any write. -/
def execAddC (x y : Reg) (s : State) : Outcome :=
  flagThenResult (carryFlag (s.reg x) (s.reg y)) x (fun _ => s.reg x + s.reg y) s

/-- 8XY5 SubB (R93): the operands of the subtraction are read again after the flag write. -/
def execSubB (x y : Reg) (s : State) : Outcome :=
  flagThenResult (noBorrowFlag (s.reg x) (s.reg y)) x (fun t => t.reg x - t.reg y) s

/-- 8XY6 Shr (R94): shifts `V[X]`; Y is ignored. -/
def execShr (x _y : Reg) (s : State) : Outcome :=
  flagThenResult (shrFlag (s.reg x)) x (fun t => t.reg x >>> 1) s

/-- 8XY7 SubBRev (R95): the operands are read again after the flag write. -/
def execSubBRev (x y : Reg) (s : State) : Outcome :=
  flagThenResult (noBorrowFlag (s.reg y) (s.reg x)) x (fun t => t.reg y - t.reg x) s

/-- 8XYE Shl (R96): shifts `V[X]`; Y is ignored. -/
def execShl (x _y : Reg) (s : State) : Outcome :=
  flagThenResult (shlFlag (s.reg x)) x (fun t => t.reg x <<< 1) s

end Sys2Proof.Machine
end

