-- ==== Sys2Proof/Machine/Display.lean ====
section
/-! DEFINITION. The display instructions (40_display.md). -/

namespace Sys2Proof.Machine

/-- 00E0 Clear (R71): every cell 0, the draw flag set whether or not a cell changed. -/
def execClear (s : State) : Outcome :=
  .next { s with fb := Framebuffer.blank, drawFlag := true }.advance

/-- DXYN Draw (R72): `V[X]`, `V[Y]` are read before VF is written; VF is 0 unless a pixel of value 1 meets a set cell;
the draw flag is always set. [log 7] -/
def execDraw (x y : Reg) (n : Nat) (s : State) : Outcome :=
  withReadable s (encode (.draw x y n)) n
    (let c := Canvas.drawRows { fb := s.fb, vf := 0 } (s.readAtI n) (s.reg x).toNat (s.reg y).toNat
     .next ({ s with fb := c.fb, drawFlag := true }.setReg regVF c.vf).advance)

end Sys2Proof.Machine
end

