-- ==== Sys2Proof/Machine/Flow.lean ====
section
/-! DEFINITION. The control transfers (41_flow.md). -/

namespace Sys2Proof.Machine

/-- 00EE Return (R76): the popped value is the Call's own address; the 2 added here steps past it. -/
def execRet (s : State) : Outcome :=
  match s.pop with
  | none => raise (.stackUnderflow s.pc (encode .ret))
  | some (a, t) => .next (t.jumpTo (a + 2))

/-- 1NNN Jump (R77). -/
def execJump (nnn : Addr12) (s : State) : Outcome := .next (s.jumpTo (addrOf nnn))

/-- 2NNN Call (R78): pushes its own address, not `pc + 2`. -/
def execCall (nnn : Addr12) (s : State) : Outcome :=
  match s.pushPc with
  | none => stackOverflowPolicy s (encode (.call nnn))
  | some t => .next (t.jumpTo (addrOf nnn))

/-- BNNN JumpOffset (R79): a 16-bit sum, not reduced to 12 bits; the offset is always V0. -/
def execJumpOffset (nnn : Addr12) (s : State) : Outcome := .next (s.jumpTo (addrOf nnn + zext (s.reg 0)))

end Sys2Proof.Machine
end

