-- ==== Sys2Proof/Machine/IndexMemory.lean ====
section
/-! DEFINITION. The index register and memory transfer (44_index_memory.md). The checks are made once, before the first
access, so an instruction moves all its bytes or none (R100); `I` is not changed by a transfer (R107). -/

namespace Sys2Proof.Machine

/-- ANNN LoadI (R101). -/
def execLoadI (nnn : Addr12) (s : State) : Outcome := .next { s with i := addrOf nnn }.advance

/-- FX1E AddIndex (R102): modulo 65536, no mask to 12 bits; the flag by policy. [log 9] -/
def execAddIndex (x : Reg) (s : State) : Outcome :=
  .next ({ s with i := s.i + zext (s.reg x) }.indexFlag (s.i.toNat + (s.reg x).toNat)).advance

/-- FX29 LoadFont (R103). [log 3] -/
def execLoadFont (x : Reg) (s : State) : Outcome := .next { s with i := glyphAddr (s.reg x) }.advance

/-- FX33 StoreBCD (R104): hundreds, tens, units at `I`, `I + 1`, `I + 2`. [log 10] -/
def execStoreBCD (x : Reg) (s : State) : Outcome :=
  withWritable s (encode (.storeBCD x)) 3 (.next (s.writeAtI (bcdDigits (s.reg x))).advance)

/-- FX55 StoreRegs (R105): `V[0..X]` to `MEM[I..I+X]`. [log 10] -/
def execStoreRegs (x : Reg) (s : State) : Outcome :=
  withWritable s (encode (.storeRegs x)) (x.val + 1) (.next (s.writeAtI (s.v.toList.take (x.val + 1))).advance)

/-- FX65 LoadRegs (R106): `MEM[I..I+X]` to `V[0..X]`; reading the font is allowed. [log 10] -/
def execLoadRegs (x : Reg) (s : State) : Outcome :=
  withReadable s (encode (.loadRegs x)) (x.val + 1)
    (.next { s with v := setRegsFrom s.v 0 (s.readAtI (x.val + 1)) }.advance)

end Sys2Proof.Machine
end

