-- ==== Sys2Proof/Machine/Skip.lean ====
section
/-! DEFINITION. The conditional skips on registers (42_skip.md). -/

namespace Sys2Proof.Machine

/-- 3XNN SkipEqN (R81). -/
def execSkipEqN (x : Reg) (nn : Byte) (s : State) : Outcome := .next (s.skipIf (s.reg x == nn))

/-- 4XNN SkipNeN (R82). -/
def execSkipNeN (x : Reg) (nn : Byte) (s : State) : Outcome := .next (s.skipIf (s.reg x != nn))

/-- 5XY0 SkipEqV (R83). -/
def execSkipEqV (x y : Reg) (s : State) : Outcome := .next (s.skipIf (s.reg x == s.reg y))

/-- 9XY0 SkipNeV (R84). -/
def execSkipNeV (x y : Reg) (s : State) : Outcome := .next (s.skipIf (s.reg x != s.reg y))

end Sys2Proof.Machine
end

