-- ==== Sys2Proof/Machine/System.lean ====
section
/-! DEFINITION. Random, keypad and timer instructions (45_random_keypad_timers.md). -/

namespace Sys2Proof.Machine

/-- CXNN Rand (R111): a free byte, masked, and used up. [log 1] -/
def execRand (x : Reg) (nn : Byte) (s : State) : Outcome := randWith s.rndByte x nn s.rndDrawn

/-- A keypad skip: the whole of `V[X]` is the key's number; above 15 it faults (R112, R113). [log 13] -/
def skipOnKey (x : Reg) (word : Word) (cond : Bool → Bool) (s : State) : Outcome :=
  match keyOf (s.reg x) with
  | none => raise (.keyIndexOutOfRange s.pc word (s.reg x))
  | some k => .next (s.skipIf (cond (s.keyDown k)))

/-- EX9E SkipKeyDown (R112). -/
def execSkipKeyDown (x : Reg) (s : State) : Outcome :=
  skipOnKey x (encode (.skipKeyDown x)) (fun down => down) s

/-- EXA1 SkipKeyUp (R113). -/
def execSkipKeyUp (x : Reg) (s : State) : Outcome :=
  skipOnKey x (encode (.skipKeyUp x)) (fun down => !down) s

/-- FX07 ReadDelay (R114). -/
def execReadDelay (x : Reg) (s : State) : Outcome := .next (s.setReg x s.dt).advance

/-- FX0A WaitKey (R115): the lowest pressed key is reported and its cell cleared; with none pressed nothing changes, and
`pc` stays on this instruction. [log 13] -/
def execWaitKey (x : Reg) (s : State) : Outcome :=
  match s.firstKey with
  | none => .next s
  | some k => .next ((s.setReg x (BitVec.ofNat 8 k.val)).setKeyCell k false).advance

/-- FX15 WriteDelay (R116). -/
def execWriteDelay (x : Reg) (s : State) : Outcome := .next { s with dt := s.reg x }.advance

/-- FX18 WriteSound (R117). -/
def execWriteSound (x : Reg) (s : State) : Outcome := .next { s with st := s.reg x }.advance

end Sys2Proof.Machine
end

