-- ==== Sys2Proof/Machine/Dispatch.lean ====
section
/-! DEFINITION. One arm per instruction: its meaning. -/

namespace Sys2Proof.Machine

def exec (i : Instr) (s : State) : Host.Outcome State Fault Refusal :=
  match i with
  | .clear => Sys2Proof.Machine.execClear s
  | .ret => Sys2Proof.Machine.execRet s
  | .jump nnn => Sys2Proof.Machine.execJump nnn s
  | .call nnn => Sys2Proof.Machine.execCall nnn s
  | .skipEqN x nn => Sys2Proof.Machine.execSkipEqN x nn s
  | .skipNeN x nn => Sys2Proof.Machine.execSkipNeN x nn s
  | .skipEqV x y => Sys2Proof.Machine.execSkipEqV x y s
  | .loadN x nn => Sys2Proof.Machine.execLoadN x nn s
  | .addN x nn => Sys2Proof.Machine.execAddN x nn s
  | .move x y => Sys2Proof.Machine.execMove x y s
  | .or x y => Sys2Proof.Machine.execOr x y s
  | .and x y => Sys2Proof.Machine.execAnd x y s
  | .xor x y => Sys2Proof.Machine.execXor x y s
  | .addC x y => Sys2Proof.Machine.execAddC x y s
  | .subB x y => Sys2Proof.Machine.execSubB x y s
  | .shr x y => Sys2Proof.Machine.execShr x y s
  | .subBRev x y => Sys2Proof.Machine.execSubBRev x y s
  | .shl x y => Sys2Proof.Machine.execShl x y s
  | .skipNeV x y => Sys2Proof.Machine.execSkipNeV x y s
  | .loadI nnn => Sys2Proof.Machine.execLoadI nnn s
  | .jumpOffset nnn => Sys2Proof.Machine.execJumpOffset nnn s
  | .rand x nn => Sys2Proof.Machine.execRand x nn s
  | .draw x y n => Sys2Proof.Machine.execDraw x y n s
  | .skipKeyDown x => Sys2Proof.Machine.execSkipKeyDown x s
  | .skipKeyUp x => Sys2Proof.Machine.execSkipKeyUp x s
  | .readDelay x => Sys2Proof.Machine.execReadDelay x s
  | .waitKey x => Sys2Proof.Machine.execWaitKey x s
  | .writeDelay x => Sys2Proof.Machine.execWriteDelay x s
  | .writeSound x => Sys2Proof.Machine.execWriteSound x s
  | .addIndex x => Sys2Proof.Machine.execAddIndex x s
  | .loadFont x => Sys2Proof.Machine.execLoadFont x s
  | .storeBCD x => Sys2Proof.Machine.execStoreBCD x s
  | .storeRegs x => Sys2Proof.Machine.execStoreRegs x s
  | .loadRegs x => Sys2Proof.Machine.execLoadRegs x s

end Sys2Proof.Machine
end

