-- ==== Sys2Proof/Machine/Step.lean ====
section
/-! DEFINITION. One step: fetch, decode, execute (60_exceptions.md R140), and where the next instruction is placed. -/

namespace Sys2Proof.Machine

/-- A step whose input `rnd`, should it be a CXNN, is the free value of the state's draw counter (R140, R111). The step
with the input presented by the host is `stepWith` in Machine/Status.lean. [log 1] -/
def step (s : State) : Host.Outcome State Fault Refusal := fetchThen exec s

/-- The state with the instruction whose bits are `w` stored where `step` fetches next. [log 15] -/
def State.withFetchWord (s : State) (nbits w : Nat) : State := placeAtPc s (tableBytes nbits w)

end Sys2Proof.Machine
end

