-- ==== Sys2Proof/Machine/Status.lean ====
section
/-! DEFINITION. The step as the host calls it: with its input `rnd` and the status it returns (60_exceptions.md R120 to
R123, R130, R137, R140). -/

namespace Sys2Proof.Machine

/-- An instruction with the step's input `rnd`, which CXNN alone reads (45_random_keypad_timers.md R111). [log 1] -/
def execWith (rnd : Byte) (i : Instr) (s : State) : Outcome :=
  match i with
  | .rand x nn => randWith rnd x nn s
  | other => exec other s

/-- `step(rnd)`: a function of the state and of `rnd` alone (R140, 10_state.md R26). It uses up no free value. [log 1] -/
def stepWith (rnd : Byte) (s : State) : Outcome := fetchThen (execWith rnd) s

/-- The statuses of R122: `OK`, the non-fatal `UNKNOWN_OPCODE` with the word and its address, and the six faults. -/
inductive Status where
  | ok
  | unknownOpcode (pc word : Word)
  | fault (f : Fault)
  deriving DecidableEq, Repr

/-- A fault's code number (R122). -/
def faultCode : Fault → Nat
  | .stackOverflow _ _ => 2
  | .stackUnderflow _ _ => 3
  | .fetchOutOfRange _ => 4
  | .memOutOfRange _ _ _ => 5
  | .fontWrite _ _ _ => 6
  | .keyIndexOutOfRange _ _ _ => 7

/-- The code number of a status (R122). -/
def statusCode : Status → Nat
  | .ok => 0
  | .unknownOpcode _ _ => 1
  | .fault f => faultCode f

/-- The status of a step that has a next state: `UNKNOWN_OPCODE` when the fetched word decodes to nothing, else `OK`. -/
def nextStatus (s : State) : Status :=
  match fetch s with
  | none => .ok
  | some w =>
    match decodeWord w with
    | .ok _ => .ok
    | .error _ => .unknownOpcode s.pc w

/-- What the host is told of a step from `s` that ended so: its one status, and the state it leaves. A fault leaves the
state as it was and latches nothing (R121). The last case never occurs: no instruction is refused. [log 5] -/
def report (s : State) : Outcome → Option (Status × State)
  | .next t => some (nextStatus s, t)
  | .fault f => some (.fault f, s)
  | .refused _ => none

/-- A step as the host sees it, with the free value as its input. -/
def stepReport (s : State) : Option (Status × State) := report s (step s)

/-- `step(rnd)` as the host sees it (R140). -/
def stepReportWith (rnd : Byte) (s : State) : Option (Status × State) := report s (stepWith rnd s)

end Sys2Proof.Machine
end

