-- ==== Sys2Proof/Machine/Operations.lean ====
section
/-! DEFINITION. The seven operations of the interface (60_exceptions.md R137 to R144, 70_reset_and_hazards.md R150 to R152). -/

namespace Sys2Proof.Machine

/-! ## The operations on the state -/

/-- A timer after one tick: one less, floored at 0 (R131). -/
def countDown (b : Byte) : Byte := if b = 0 then 0 else b - 1

/-- The output of a tick: true exactly when it takes the sound timer from 1 to 0 (R131). -/
def toneOf (s : State) : Bool := s.st == 1

/-- `tick_timers()` (R131): the state it leaves. -/
def tickTimers (s : State) : State := { s with dt := countDown s.dt, st := countDown s.st }

/-- `set_key(k, pressed)` with `k` a key (R141). -/
def setKey (k : Fin Config.nkeys) (pressed : Bool) (s : State) : State := s.setKeyCell k pressed

/-- `clear_draw_flag()` (R142). -/
def clearDrawFlag (s : State) : State := { s with drawFlag := false }

/-- `load_program(bytes)` (R139): the image copied to 0x200 upward. It is not subject to the font-write check, and an
image the interface takes cannot reach the font. -/
def loadProgram (image : List Byte) (s : State) : State :=
  { s with mem := s.mem.writeBytes Config.progBase image }

/-- `reset()` (70_reset_and_hazards.md R150): the reset state. The draw counter, the model's own, goes on: the byte of a
draw after a reset is not tied to one before it. [log 1] -/
def resetMachine (s : State) : State := { State.reset with rndCount := s.rndCount }

/-- The launch state of a program: `reset()` and then `load_program` (R152). -/
def launch (image : List Byte) : State := loadProgram image State.reset

/-! ## The interface as the host drives it -/

/-- The operations of R137. The host gives `set_key` a number and `load_program` any bytes; `perform` says which calls
are operations of the interface (R139, R141, R144). -/
inductive Operation where
  | reset
  | loadProgram (image : List Byte)
  | step (rnd : Byte)
  | tickTimers
  | setKey (k : Nat) (pressed : Bool)
  | clearDrawFlag
  | snapshot
  deriving DecidableEq, Repr

/-- What an operation gives back (R137, the column of outputs). -/
inductive Output where
  | nothing
  | status (r : Status)
  | tone (on : Bool)
  | snapshot (s : State)
  deriving DecidableEq, Repr

/-- Why a call is no operation of the interface: the caller's errors of R144. -/
inductive NoMove where
  /-- `load_program` after the first step, or a second time (R144) -/
  | loadAtWrongTime
  /-- an image longer than 0xFFF - 0x200 bytes (R139) -/
  | imageTooLong
  /-- `set_key` with an index of 16 or more (R141) -/
  | noSuchKey
  /-- the step was refused; it never is -/
  | stepRefused
  deriving DecidableEq, Repr

/-- How far the host is between two resets: R144 lets it load once, before the first step. [log 16] -/
inductive Phase where
  | fresh
  | loaded
  | running
  deriving DecidableEq, Repr

/-- The machine and the phase of the host's protocol, which is no state of the hardware. [log 16] -/
structure Session where
  machine : State
  phase : Phase
  deriving DecidableEq, Repr

/-- After the first `reset()`; before it no state exists (70_reset_and_hazards.md R151). -/
def Session.start : Session := { machine := State.reset, phase := .fresh }

/-- One operation, whole, before the next begins (R137). A step that faults leaves the machine as it was: stopped, not
final, until the host resets it (R121, R135). -/
def perform (op : Operation) (c : Session) : Except NoMove (Output × Session) :=
  match op with
  | .reset => .ok (.nothing, { machine := resetMachine c.machine, phase := .fresh })
  | .loadProgram image =>
    if c.phase ≠ .fresh then .error .loadAtWrongTime
    else if image.length > Config.progMaxLen then .error .imageTooLong
    else .ok (.nothing, { machine := Machine.loadProgram image c.machine, phase := .loaded })
  | .step rnd =>
    match stepReportWith rnd c.machine with
    | some (r, t) => .ok (.status r, { machine := t, phase := .running })
    | none => .error .stepRefused
  | .tickTimers => .ok (.tone (toneOf c.machine), { c with machine := Machine.tickTimers c.machine })
  | .setKey k pressed =>
    if h : k < Config.nkeys then .ok (.nothing, { c with machine := Machine.setKey ⟨k, h⟩ pressed c.machine })
    else .error .noSuchKey
  | .clearDrawFlag => .ok (.nothing, { c with machine := Machine.clearDrawFlag c.machine })
  | .snapshot => .ok (.snapshot c.machine, c)

/-- Operations one after the other, in the one total order the host chooses (20_memory.md R46). -/
def performAll : List Operation → Session → Except NoMove (List Output × Session)
  | [], c => .ok ([], c)
  | op :: ops, c =>
    match perform op c with
    | .error e => .error e
    | .ok (o, d) =>
      match performAll ops d with
      | .error e => .error e
      | .ok (os, e) => .ok (o :: os, e)

end Sys2Proof.Machine
end

