-- ==== Sys2Proof/Safety.lean ====
section
/-! DEFINITION. The terms claims are made in: which parts of the state an instruction may write, when an instruction
executes normally, the invariant of every reachable state, the end of a run. -/

namespace Sys2Proof.Safety

open Sys2Proof.Machine

/-! ## Frames -/

/-- The elements of the state (10_state.md R26), and the model's draw counter. -/
inductive Part where
  | v | i | pc | stack | sp | dt | st | key | fb | drawFlag | mem | rndCount
  deriving DecidableEq, Repr

/-- The element is the same in both states: every register, slot, key, pixel and byte of memory reads the same. -/
def Part.Same : Part → State → State → Prop
  | .v, s, t => ∀ r, t.reg r = s.reg r
  | .i, s, t => t.i = s.i
  | .pc, s, t => t.pc = s.pc
  | .stack, s, t => ∀ k : Fin 16, t.stack[k.val] = s.stack[k.val]
  | .sp, s, t => t.sp = s.sp
  | .dt, s, t => t.dt = s.dt
  | .st, s, t => t.st = s.st
  | .key, s, t => ∀ k, t.keyDown k = s.keyDown k
  | .fb, s, t => ∀ x y, Framebuffer.pixel t.fb x y = Framebuffer.pixel s.fb x y
  | .drawFlag, s, t => t.drawFlag = s.drawFlag
  | .mem, s, t => ∀ a, t.mem.read a = s.mem.read a
  | .rndCount, s, t => t.rndCount = s.rndCount

/-- From `s` to `t` nothing changes but, possibly, the listed elements. -/
def OnlyWrites (parts : List Part) (s t : State) : Prop := ∀ p, p ∉ parts → p.Same s t

/-- No register changes but, possibly, the listed ones. -/
def OnlyRegs (rs : List Reg) (s t : State) : Prop := ∀ r, r ∉ rs → t.reg r = s.reg r

/-- The elements an instruction writes (10_state.md R29, the column "writes"); Rand also uses up a draw. -/
def writes : Instr → List Part
  | .clear => [.fb, .drawFlag, .pc]
  | .ret => [.sp, .pc]
  | .jump _ => [.pc]
  | .call _ => [.stack, .sp, .pc]
  | .skipEqN _ _ | .skipNeN _ _ | .skipEqV _ _ | .skipNeV _ _ => [.pc]
  | .loadN _ _ | .addN _ _ | .move _ _ | .or _ _ | .and _ _ | .xor _ _ => [.v, .pc]
  | .addC _ _ | .subB _ _ | .shr _ _ | .subBRev _ _ | .shl _ _ => [.v, .pc]
  | .loadI _ => [.i, .pc]
  | .jumpOffset _ => [.pc]
  | .rand _ _ => [.v, .pc, .rndCount]
  | .draw _ _ _ => [.v, .fb, .drawFlag, .pc]
  | .skipKeyDown _ | .skipKeyUp _ => [.pc]
  | .readDelay _ => [.v, .pc]
  | .waitKey _ => [.v, .key, .pc]
  | .writeDelay _ => [.dt, .pc]
  | .writeSound _ => [.st, .pc]
  | .addIndex _ | .loadFont _ => [.i, .pc]
  | .storeBCD _ | .storeRegs _ => [.mem, .pc]
  | .loadRegs _ => [.v, .pc]

/-- The general registers an instruction may write (10_state.md R29, R11). -/
def regsWritten : Instr → List Reg
  | .loadN x _ | .addN x _ | .move x _ | .or x _ | .and x _ | .xor x _ => [x]
  | .addC x _ | .subB x _ | .shr x _ | .subBRev x _ | .shl x _ => [regVF, x]
  | .rand x _ | .readDelay x | .waitKey x => [x]
  | .draw _ _ _ => [regVF]
  | .loadRegs x => (List.finRange 16).filter (fun r => r ≤ x)
  | .clear | .ret | .jump _ | .call _ | .loadI _ | .jumpOffset _ => []
  | .skipEqN _ _ | .skipNeN _ _ | .skipEqV _ _ | .skipNeV _ _ | .skipKeyDown _ | .skipKeyUp _ => []
  | .writeDelay _ | .writeSound _ | .addIndex _ | .loadFont _ | .storeBCD _ | .storeRegs _ => []

/-- How many bytes an instruction stores at `I` (20_memory.md R45). -/
def bytesStored : Instr → Nat
  | .storeBCD _ => 3
  | .storeRegs x => x.val + 1
  | _ => 0

/-- The address lies among the `n` bytes from `I`. -/
def InRange (s : State) (n a : Nat) : Prop := dataAddr s 0 ≤ a ∧ a < dataAddr s 0 + n

/-- The instruction executes normally: it answers a next state, and `post` says what that state holds. -/
def Completes (i : Instr) (s : State) (post : State → Prop) : Prop := ∃ t, exec i s = .next t ∧ post t

/-! ## When an instruction executes normally (70_reset_and_hazards.md R160, 60_exceptions.md R122) -/

/-- `n` bytes from `I` lie inside memory (20_memory.md R40); no byte always does. -/
def Readable (s : State) (n : Nat) : Prop := n = 0 ∨ s.i.toNat + n ≤ 0x1000

/-- `n` bytes from `I` lie inside memory and outside the font region (20_memory.md R40, R41). -/
def Writable (s : State) (n : Nat) : Prop :=
  Readable s n ∧ ∀ k < n, ¬ (fontBase ≤ s.i.toNat + k ∧ s.i.toNat + k < fontBase + fontSize)

/-- What the program must respect for this instruction (R160). -/
def Permitted : Instr → State → Prop
  | .call _, s => s.sp.val ≠ 16
  | .ret, s => s.sp.val ≠ 0
  | .draw _ _ n, s => Readable s n
  | .loadRegs x, s => Readable s (x.val + 1)
  | .storeRegs x, s => Writable s (x.val + 1)
  | .storeBCD _, s => Writable s 3
  | .skipKeyDown x, s | .skipKeyUp x, s => (s.reg x).toNat ≤ 15
  | _, _ => True

/-- 1 when `a - b` needs no borrow, else 0, as a number (43_alu.md R85). -/
def noBorrow (a b : Byte) : Nat := if b.toNat ≤ a.toNat then 1 else 0

/-- The instructions that transfer control absolutely (41_flow.md R75). -/
def isTransfer : Instr → Bool
  | .ret | .jump _ | .call _ | .jumpOffset _ => true
  | _ => false

/-- The conditional skips (42_skip.md R80, 45_random_keypad_timers.md R112, R113). -/
def isSkip : Instr → Bool
  | .skipEqN _ _ | .skipNeN _ _ | .skipEqV _ _ | .skipNeV _ _ | .skipKeyDown _ | .skipKeyUp _ => true
  | _ => false

/-! ## The sprite as one picture (40_display.md R70, R72) -/

/-- Byte `row` of the sprite at `I`, pixel `col` (R70). -/
def spriteBit (s : State) (row col : Nat) : Bool := (s.mem.read (s.i.toNat + row)).getLsbD (7 - col)

/-- Some pixel of value 1 of the `n`-row sprite at column `x0`, row `y0` falls on the cell (x, y), wrapping (R72). -/
def Covers (s : State) (n x0 y0 : Nat) (x : Fin 64) (y : Fin 32) : Prop :=
  ∃ row < n, ∃ col < 8, spriteBit s row col = true ∧ (x0 + col) % 64 = x.val ∧ (y0 + row) % 32 = y.val

/-! ## The invariant of every reachable state -/

/-- What holds after reset and is kept by every operation. -/
structure Inv (s : State) : Prop where
  /-- memory is in its canonical form -/
  canonical : s.mem.wf
  /-- memory lists only addresses 0x000 to 0xFFF (20_memory.md R35) -/
  inSpace : s.mem.inSpace
  /-- the font is "never overwritten by program logic" (10_state.md R22) -/
  fontKept : ∀ a, inFont a = true → s.mem.read a = resetByte a
  /-- the largest pc a step can produce is 0x10FE (10_state.md R13) -/
  pcBound : s.pc.toNat ≤ 0x10FE
  /-- a stacked return address is the address of a fetched Call (41_flow.md R76) -/
  returnAddrs : ∀ k : Fin 16, k.val < s.sp.val → s.stack[k.val].toNat ≤ 0xFFE

/-! ## The end of a run (70_reset_and_hazards.md R154) -/

/-- The word at `pc` is a Jump to `pc` itself: `MEM[pc] * 256 + MEM[pc+1] = 0x1000 + pc`, `pc <= 0xFFE`. [log 19] -/
def atEnd (s : State) : Bool :=
  s.pc.toNat ≤ 0xFFE &&
    (s.mem.read s.pc.toNat).toNat * 256 + (s.mem.read (s.pc.toNat + 1)).toNat == 0x1000 + s.pc.toNat

/-- The operations a host may issue at any time while a program runs (60_exceptions.md R144), `reset` apart. -/
def whileRunning : Operation → Bool
  | .step _ | .tickTimers | .clearDrawFlag | .snapshot => true
  | .setKey k _ => k < 16
  | .reset | .loadProgram _ => false

/-! ## Comparing two states that differ where no instruction looks -/

/-- The states agree on everything but the draw flag and the sound timer. -/
def SameButDrawAndSound (s t : State) : Prop := t = { s with drawFlag := t.drawFlag, st := t.st }

/-- Two steps end alike: the same fault, or next states that agree on everything but the draw flag and the sound timer. -/
def EndAlike : Outcome → Outcome → Prop
  | .next s, .next t => SameButDrawAndSound s t
  | .fault f, .fault g => f = g
  | .refused r, .refused q => r = q
  | _, _ => False

end Sys2Proof.Safety
end

