-- ==== Sys2Proof/Certificates/Slice0/Obligations.lean ====
section
/-! DEFINITION. The statements for the provers. A statement whose docstring names a decision D<n> of the spec or a log
entry rests, in that clause, on a choice and not on the source document. -/

open Sys2Proof Sys2Proof.Machine Sys2Proof.Safety

/-! ## Encoding (30_encoding.md) -/

/-- R56: each field is the mask and shift the document gives. -/
def Obligations.FieldsAreTheMasksAndShifts : Prop :=
  ∀ w : Word,
    fieldF w = ((w &&& 0xF000#16) >>> 12).toNat ∧
    (fieldX w).val = ((w &&& 0x0F00#16) >>> 8).toNat ∧
    (fieldY w).val = ((w &&& 0x00F0#16) >>> 4).toNat ∧
    fieldN w = (w &&& 0x000F#16).toNat ∧
    (fieldNN w).toNat = (w &&& 0x00FF#16).toNat ∧
    (fieldNNN w).toNat = (w &&& 0x0FFF#16).toNat

/-- One word of each family, written out from the encodings of R58, and four unknown words of R60 (decode keys: D3, log 6). -/
def Obligations.WrittenOutWordsDecode : Prop :=
  decodeWord 0x00E0 = .ok .clear ∧ decodeWord 0x22A4 = .ok (.call 0x2A4) ∧
  decodeWord 0x5120 = .ok (.skipEqV 1 2) ∧ decodeWord 0x631F = .ok (.loadN 3 0x1F) ∧
  decodeWord 0x8124 = .ok (.addC 1 2) ∧ decodeWord 0xD015 = .ok (.draw 0 1 5) ∧
  decodeWord 0xE1A1 = .ok (.skipKeyUp 1) ∧ decodeWord 0xF455 = .ok (.storeRegs 4) ∧
  decodeWord 0xC10F = .ok (.rand 1 0x0F) ∧ decodeWord 0x01E0 = .error (.unknownWord 0x01E0) ∧
  decodeWord 0x5121 = .error (.unknownWord 0x5121) ∧ decodeWord 0x812F = .error (.unknownWord 0x812F) ∧
  decodeWord 0xF175 = .error (.unknownWord 0xF175)

/-- Decoding the bytes of any well-formed instruction gives it back, with every operand, and leaves the bytes after it. -/
def Obligations.DecodeOfEncodeIsTheInstruction : Prop :=
  ∀ (i : Instr) (rest : List Byte), i.WellFormed → decode (encodeBytes i ++ rest) = .ok (i, rest)

/-- A word that decodes is the encoding of the instruction it decodes to, and that instruction is well formed. It rests
on the decode keys (every literal digit must match: D3, log 6). -/
def Obligations.EncodeOfDecodeIsTheWord : Prop :=
  ∀ (w : Word) (i : Instr), decodeWord w = .ok i → i.WellFormed ∧ encode i = w

/-- The decoder agrees with the opcode map of R58 on every word: it reads an instruction of the name of a row exactly
when the word matches that row, and rejects exactly the words that match no row (decode keys: D3, log 6). -/
def Obligations.DecodeFollowsTheOpcodeMap : Prop :=
  ∀ w : Word,
    (∀ r ∈ opcodeMap, r.matches w = true ↔ ∃ i, decodeWord w = .ok i ∧ i.name = r.name) ∧
    ((∀ r ∈ opcodeMap, r.matches w = false) ↔ decodeWord w = .error (.unknownWord w))

/-- The unknown words are those of R60's table (D3 and D28, log 6). -/
def Obligations.UnknownWordsAreThoseOfTheTable : Prop :=
  ∀ w : Word, decodeWord w = .error (.unknownWord w) ↔
    (fieldF w = 0x0 ∧ w ≠ 0x00E0 ∧ w ≠ 0x00EE) ∨
    (fieldF w = 0x5 ∧ fieldN w ≠ 0) ∨
    (fieldF w = 0x8 ∧ fieldN w ∈ [0x8, 0x9, 0xA, 0xB, 0xC, 0xD, 0xF]) ∨
    (fieldF w = 0x9 ∧ fieldN w ≠ 0) ∨
    (fieldF w = 0xE ∧ fieldNN w ∉ [0x9E#8, 0xA1#8]) ∨
    (fieldF w = 0xF ∧ fieldNN w ∉ [0x07#8, 0x0A#8, 0x15#8, 0x18#8, 0x1E#8, 0x29#8, 0x33#8, 0x55#8, 0x65#8])

/-! ## Fetch, step, status (20_memory.md, 60_exceptions.md) -/

/-- R37: the word is `MEM[pc] * 256 + MEM[pc+1]`; the first byte gives bits 15:8, the second bits 7:0. -/
def Obligations.FetchIsBigEndian : Prop :=
  ∀ s : State, s.pc.toNat ≤ 0xFFE → ∃ w, fetch s = some w ∧
    w.toNat = (s.mem.read s.pc.toNat).toNat * 256 + (s.mem.read (s.pc.toNat + 1)).toNat ∧
    w.extractLsb' 8 8 = s.mem.read s.pc.toNat ∧ w.extractLsb' 0 8 = s.mem.read (s.pc.toNat + 1)

/-- When the two bytes at `pc` decode to `i`, the step is `exec i` in the same state and nothing around it; the status
is OK exactly when that answers a next state. -/
def Obligations.StepRunsTheDecodedInstruction : Prop :=
  ∀ (s : State) (i : Instr), s.pc.toNat ≤ 0xFFE →
    decode [s.mem.read s.pc.toNat, s.mem.read (s.pc.toNat + 1)] = .ok (i, []) →
    step s = exec i s ∧ ∀ t, exec i s = .next t → stepReport s = some (.ok, t)

/-- A fetch that would leave memory faults and changes nothing (D7, log 12). -/
def Obligations.FetchBeyondMemoryFaults : Prop :=
  ∀ s : State, 0xFFE < s.pc.toNat →
    step s = .fault (.fetchOutOfRange s.pc) ∧ stepReport s = some (.fault (.fetchOutOfRange s.pc), s)

/-- An unknown word advances pc by 2, changes nothing else, and is reported with its address (D2, log 6). -/
def Obligations.UnknownWordOnlyAdvancesPc : Prop :=
  ∀ (s : State) (e : DecodeError), s.pc.toNat ≤ 0xFFE →
    decode [s.mem.read s.pc.toNat, s.mem.read (s.pc.toNat + 1)] = .error e →
    ∃ t w, step s = .next t ∧ t.pc.toNat = s.pc.toNat + 2 ∧ OnlyWrites [.pc] s t ∧
      w.toNat = (s.mem.read s.pc.toNat).toNat * 256 + (s.mem.read (s.pc.toNat + 1)).toNat ∧
      stepReport s = some (.unknownOpcode s.pc w, t)

/-- Every step, with its input presented or free, returns exactly one status, and no step is refused (statuses: D1,
log 5). -/
def Obligations.EveryStepReturnsAStatus : Prop :=
  ∀ (s : State) (o : Outcome), (o = step s ∨ ∃ rnd, o = stepWith rnd s) → ∃ r t, report s o = some (r, t) ∧
    ((∃ f, o = .fault f ∧ r = .fault f ∧ t = s) ∨
     (o = .next t ∧ (r = .ok ∨ ∃ w, r = .unknownOpcode s.pc w)))

/-- A fault changes no state and lasts: whatever the host does short of reset and load, the next step faults the same
way again (D1, log 5). -/
def Obligations.FaultLastsUntilReset : Prop :=
  ∀ (ops : List Operation) (c d : Session) (outs : List Output) (f : Fault),
    step c.machine = .fault f → (∀ op ∈ ops, whileRunning op = true) →
    performAll ops c = .ok (outs, d) →
    step d.machine = .fault f ∧ stepReport d.machine = some (.fault f, d.machine) ∧
    ∀ rnd, stepWith rnd d.machine = .fault f ∧ stepReportWith rnd d.machine = some (.fault f, d.machine)

/-! ## Reset and boot (70_reset_and_hazards.md) -/

/-- R27, R150: what reset leaves, in every element, and that the operation `reset` gives it in any session. (`font` and
`fontBase` are the parameters FONT and FONT_BASE; their values are logs 2 and 3, and the statement rests on neither. It
says nothing of the model's own draw counter, log 1.) -/
def Obligations.ResetGivesTheListedState : Prop :=
  (∀ c : Session, ∃ t, perform .reset c = .ok (.nothing, { machine := t, phase := .fresh }) ∧
    OnlyWrites [.rndCount] State.reset t) ∧
  (∀ r, State.reset.reg r = 0) ∧ State.reset.i = 0 ∧ State.reset.pc = 0x200 ∧
  (∀ k : Fin 16, State.reset.stack[k.val] = 0) ∧ State.reset.sp = 0 ∧
  State.reset.dt = 0 ∧ State.reset.st = 0 ∧ (∀ k, State.reset.keyDown k = false) ∧
  (∀ x y, Framebuffer.pixel State.reset.fb x y = false) ∧ State.reset.drawFlag = false ∧
  (∀ k, k < 80 → some (State.reset.mem.read (fontBase + k)) = font[k]?) ∧
  (∀ a, a < fontBase ∨ fontBase + 80 ≤ a → State.reset.mem.read a = 0)

/-- `load_program` copies the image to 0x200 upward and changes nothing else; a second or late load and an image of more
than 3583 bytes are no operations (D19, log 16). -/
def Obligations.LoadProgramCopiesTheImage : Prop :=
  ∀ (image : List Byte) (s : State),
    (image.length ≤ 3583 → s.mem.wf → ∃ t,
      perform (.loadProgram image) { machine := s, phase := .fresh } = .ok (.nothing, { machine := t, phase := .loaded }) ∧
      OnlyWrites [.mem] s t ∧
      (∀ k, k < image.length → some (t.mem.read (0x200 + k)) = image[k]?) ∧
      (∀ a, a < 0x200 ∨ 0x200 + image.length ≤ a → t.mem.read a = s.mem.read a)) ∧
    (3583 < image.length →
      perform (.loadProgram image) { machine := s, phase := .fresh } = .error .imageTooLong) ∧
    (∀ p, p ≠ Phase.fresh →
      perform (.loadProgram image) { machine := s, phase := p } = .error .loadAtWrongTime)

/-- After reset and load, the first step fetches the first two bytes of the image (R152, the spec's own inference). -/
def Obligations.BootFetchesTheImage : Prop :=
  ∀ (b0 b1 : Byte) (rest : List Byte), rest.length + 2 ≤ 3583 →
    ∃ outs c, performAll [.reset, .loadProgram (b0 :: b1 :: rest)] Session.start = .ok (outs, c) ∧
      c.machine.pc = 0x200 ∧ fetch c.machine = some (wordOfBytes b0 b1)

/-- The host's placing of a word: the very next step runs the instruction it decodes to (the model's own, log 15). -/
def Obligations.PlacedWordIsRunNext : Prop :=
  ∀ (s : State) (w : Nat) (i : Instr), s.mem.wf → decodeTableWord 16 w = some i →
    step (s.withFetchWord 16 w) = exec i (s.withFetchWord 16 w) ∧
    OnlyWrites [.mem, .pc] s (s.withFetchWord 16 w)

/-! ## Display (40_display.md) -/

/-- Clear (the draw flag is set even when no cell changed: D18, log 7). -/
def Obligations.ClearBlanksTheScreen : Prop :=
  ∀ s : State, Completes .clear s fun t =>
    (∀ x y, Framebuffer.pixel t.fb x y = false) ∧ t.drawFlag = true ∧ t.pc = s.pc + 2 ∧
    OnlyWrites [.fb, .drawFlag, .pc] s t

/-- Draw as one picture: a cell changes exactly when a sprite pixel of value 1 covers it, VF is 1 exactly when one of
those cells was set, and nothing else changes (wrapping: D8; VF and the reads before it: D9; log 7). -/
def Obligations.DrawXorsTheSprite : Prop :=
  ∀ (x y : Reg) (n : Nat) (s : State), n < 16 → Readable s n →
    Completes (.draw x y n) s fun t =>
      (∀ px py, Framebuffer.pixel t.fb px py ≠ Framebuffer.pixel s.fb px py ↔
        Covers s n (s.reg x).toNat (s.reg y).toNat px py) ∧
      ((∃ px py, Covers s n (s.reg x).toNat (s.reg y).toNat px py ∧ Framebuffer.pixel s.fb px py = true) →
        t.reg regVF = 1) ∧
      ((∀ px py, Covers s n (s.reg x).toNat (s.reg y).toNat px py → Framebuffer.pixel s.fb px py = false) →
        t.reg regVF = 0) ∧
      t.drawFlag = true ∧ t.pc = s.pc + 2 ∧ OnlyRegs [regVF] s t ∧
      OnlyWrites [.v, .fb, .drawFlag, .pc] s t

/-- Drawing the same sprite twice at the same place restores every cell; if the first Draw met no set cell and the
sprite has a pixel of value 1, the second reports a collision (wrapping: D8, VF: D9, log 7). -/
def Obligations.DrawTwiceRestoresTheScreen : Prop :=
  ∀ (x y : Reg) (n : Nat) (s t u : State), n < 16 → x ≠ regVF → y ≠ regVF →
    exec (.draw x y n) s = .next t → exec (.draw x y n) t = .next u →
    (∀ px py, Framebuffer.pixel u.fb px py = Framebuffer.pixel s.fb px py) ∧
    ((∃ row < n, ∃ col < 8, spriteBit s row col = true) → t.reg regVF = 0 → u.reg regVF = 1)

/-- Corner case (f) of R72 read to the letter, without the premise that the first Draw met no set cell. Expected to fail:
over lit cells the first Draw clears them and the second meets none (log 7). -/
def Obligations.SecondDrawAlwaysCollides : Prop :=
  ∀ (x y : Reg) (n : Nat) (s t u : State), n < 16 → x ≠ regVF → y ≠ regVF →
    exec (.draw x y n) s = .next t → exec (.draw x y n) t = .next u →
    (∃ row < n, ∃ col < 8, spriteBit s row col = true) → u.reg regVF = 1

/-! ## Control transfer (41_flow.md) -/

/-- R77; a Jump to its own address leaves the whole state unchanged. -/
def Obligations.JumpIsAbsolute : Prop :=
  ∀ (nnn : Addr12) (s : State), Completes (.jump nnn) s fun t =>
    t.pc.toNat = nnn.toNat ∧ OnlyWrites [.pc] s t ∧ (s.pc.toNat = nnn.toNat → t = s)

/-- JumpOffset adds V0 and masks nothing (the sum is not reduced to 12 bits: the spec's inference in R79). -/
def Obligations.JumpOffsetAddsV0 : Prop :=
  ∀ (nnn : Addr12) (s : State), Completes (.jumpOffset nnn) s fun t =>
    t.pc.toNat = nnn.toNat + (s.reg 0).toNat ∧ OnlyWrites [.pc] s t

/-- Call stacks its own address in the first free slot; at depth 16 it faults (D4, log 11). -/
def Obligations.CallStacksItsOwnAddress : Prop :=
  ∀ (nnn : Addr12) (s : State),
    (s.sp.val < 16 → Completes (.call nnn) s fun t =>
      t.pc.toNat = nnn.toNat ∧ t.sp.val = s.sp.val + 1 ∧
      (∀ k : Fin 16, t.stack[k.val] = if k.val = s.sp.val then s.pc else s.stack[k.val]) ∧
      OnlyWrites [.stack, .sp, .pc] s t) ∧
    (s.sp.val = 16 → exec (.call nnn) s = .fault (.stackOverflow s.pc (encode (.call nnn))))

/-- Return goes 2 past the popped address and keeps the slot; on an empty stack it faults (D5, log 11). -/
def Obligations.ReturnGoesPastTheCall : Prop :=
  ∀ s : State,
    (∀ k : Fin 16, s.sp.val = k.val + 1 → Completes .ret s fun t =>
      t.pc = s.stack[k.val] + 2 ∧ t.sp.val = k.val ∧ OnlyWrites [.sp, .pc] s t) ∧
    (s.sp.val = 0 → exec .ret s = .fault (.stackUnderflow s.pc (encode .ret)))

/-- Call, then Return from any state that has the same stack: control is one instruction past the call site, at the
depth it had. -/
def Obligations.CallThenReturnComesBack : Prop :=
  ∀ (nnn : Addr12) (s t u : State), exec (.call nnn) s = .next t → u.sp = t.sp → u.stack = t.stack →
    Completes .ret u fun r => r.pc = s.pc + 2 ∧ r.sp = s.sp ∧ OnlyWrites [.sp, .pc] u r

/-! ## Skips (42_skip.md) -/

/-- R81 to R84: SkipEqN, SkipNeN, SkipEqV, SkipNeV write only pc. -/
def Obligations.RegisterSkipsMoveByFourOrTwo : Prop :=
  ∀ (x y : Reg) (nn : Byte) (s : State),
    (Completes (.skipEqN x nn) s fun t =>
      t.pc = s.pc + (if s.reg x = nn then 4 else 2) ∧ OnlyWrites [.pc] s t) ∧
    (Completes (.skipNeN x nn) s fun t =>
      t.pc = s.pc + (if s.reg x = nn then 2 else 4) ∧ OnlyWrites [.pc] s t) ∧
    (Completes (.skipEqV x y) s fun t =>
      t.pc = s.pc + (if s.reg x = s.reg y then 4 else 2) ∧ OnlyWrites [.pc] s t) ∧
    (Completes (.skipNeV x y) s fun t =>
      t.pc = s.pc + (if s.reg x = s.reg y then 2 else 4) ∧ OnlyWrites [.pc] s t)

/-! ## Load and arithmetic (43_alu.md) -/

/-- R86 to R88: LoadN, AddN, Move; VF is not written unless it is the destination. -/
def Obligations.LoadAddMoveWriteOneRegister : Prop :=
  ∀ (x y : Reg) (nn : Byte) (s : State),
    (Completes (.loadN x nn) s fun t =>
      t.reg x = nn ∧ t.pc = s.pc + 2 ∧ OnlyRegs [x] s t ∧ OnlyWrites [.v, .pc] s t) ∧
    (Completes (.addN x nn) s fun t =>
      (t.reg x).toNat = ((s.reg x).toNat + nn.toNat) % 256 ∧ t.pc = s.pc + 2 ∧ OnlyRegs [x] s t ∧
      OnlyWrites [.v, .pc] s t) ∧
    (Completes (.move x y) s fun t =>
      t.reg x = s.reg y ∧ t.pc = s.pc + 2 ∧ OnlyRegs [x] s t ∧ OnlyWrites [.v, .pc] s t)

/-- R89 to R91: Or, And, Xor, bit by bit; VF is left as it was unless it is the destination. -/
def Obligations.LogicIsBitwise : Prop :=
  ∀ (x y : Reg) (s : State),
    (Completes (.or x y) s fun t =>
      (∀ k < 8, (t.reg x).getLsbD k = ((s.reg x).getLsbD k || (s.reg y).getLsbD k)) ∧ t.pc = s.pc + 2 ∧
      OnlyRegs [x] s t ∧ OnlyWrites [.v, .pc] s t) ∧
    (Completes (.and x y) s fun t =>
      (∀ k < 8, (t.reg x).getLsbD k = ((s.reg x).getLsbD k && (s.reg y).getLsbD k)) ∧ t.pc = s.pc + 2 ∧
      OnlyRegs [x] s t ∧ OnlyWrites [.v, .pc] s t) ∧
    (Completes (.xor x y) s fun t =>
      (∀ k < 8, (t.reg x).getLsbD k = ((s.reg x).getLsbD k ^^ (s.reg y).getLsbD k)) ∧ t.pc = s.pc + 2 ∧
      OnlyRegs [x] s t ∧ OnlyWrites [.v, .pc] s t)

/-- AddC: sum and carry; with X = F the sum replaces the carry (that clause: D16, log 8). -/
def Obligations.AddCGivesSumAndCarry : Prop :=
  ∀ (x y : Reg) (s : State), Completes (.addC x y) s fun t =>
    (t.reg x).toNat = ((s.reg x).toNat + (s.reg y).toNat) % 256 ∧
    (x ≠ regVF → t.reg regVF = if (s.reg x).toNat + (s.reg y).toNat > 255 then 1 else 0) ∧
    t.pc = s.pc + 2 ∧ OnlyRegs [x, regVF] s t ∧ OnlyWrites [.v, .pc] s t

/-- SubB and SubBRev where VF is no operand: the difference modulo 256, and VF = 1 when there is no borrow. -/
def Obligations.SubtractionsGiveDifferenceAndNoBorrow : Prop :=
  ∀ (x y : Reg) (s : State), x ≠ regVF → y ≠ regVF →
    (Completes (.subB x y) s fun t =>
      (t.reg x).toNat = (256 + (s.reg x).toNat - (s.reg y).toNat) % 256 ∧
      (t.reg regVF).toNat = noBorrow (s.reg x) (s.reg y) ∧
      t.pc = s.pc + 2 ∧ OnlyRegs [x, regVF] s t ∧ OnlyWrites [.v, .pc] s t) ∧
    (Completes (.subBRev x y) s fun t =>
      (t.reg x).toNat = (256 + (s.reg y).toNat - (s.reg x).toNat) % 256 ∧
      (t.reg regVF).toNat = noBorrow (s.reg y) (s.reg x) ∧
      t.pc = s.pc + 2 ∧ OnlyRegs [x, regVF] s t ∧ OnlyWrites [.v, .pc] s t)

/-- Shr and Shl where VF is not the destination: one bit, logical, of V[X]; the bit shifted out goes to VF; Y is ignored. -/
def Obligations.ShiftsMoveOneBit : Prop :=
  ∀ (x y : Reg) (s : State), x ≠ regVF →
    (Completes (.shr x y) s fun t =>
      (t.reg x).toNat = (s.reg x).toNat / 2 ∧ (t.reg regVF).toNat = (s.reg x).toNat % 2 ∧
      t.pc = s.pc + 2 ∧ OnlyRegs [x, regVF] s t ∧ OnlyWrites [.v, .pc] s t) ∧
    (Completes (.shl x y) s fun t =>
      (t.reg x).toNat = 2 * (s.reg x).toNat % 256 ∧ (t.reg regVF).toNat = (s.reg x).toNat / 128 ∧
      t.pc = s.pc + 2 ∧ OnlyRegs [x, regVF] s t ∧ OnlyWrites [.v, .pc] s t)

/-- VF as an operand of the flag-writing instructions, the table of R97 (D16, log 8). SubB, SubBRev, Shr and Shl read the
flag they have just written; AddC reads its operands first and the result replaces the carry. AddC's values only: its pc
and frame are in AddCGivesSumAndCarry; Shr and Shl with Y = F alone are in ShiftsMoveOneBit. -/
def Obligations.FlagRegisterAsOperand : Prop :=
  ∀ (x y : Reg) (s : State), x ≠ regVF → y ≠ regVF →
    (Completes (.addC regVF y) s fun t =>
      (t.reg regVF).toNat = ((s.reg regVF).toNat + (s.reg y).toNat) % 256) ∧
    (Completes (.addC x regVF) s fun t =>
      (t.reg x).toNat = ((s.reg x).toNat + (s.reg regVF).toNat) % 256 ∧
      (t.reg regVF).toNat = ((s.reg x).toNat + (s.reg regVF).toNat) / 256) ∧
    (Completes (.addC regVF regVF) s fun t => (t.reg regVF).toNat = 2 * (s.reg regVF).toNat % 256) ∧
    (Completes (.subB regVF y) s fun t =>
      (t.reg regVF).toNat = (256 + noBorrow (s.reg regVF) (s.reg y) - (s.reg y).toNat) % 256 ∧
      t.pc = s.pc + 2 ∧ OnlyRegs [regVF] s t ∧ OnlyWrites [.v, .pc] s t) ∧
    (Completes (.subB x regVF) s fun t =>
      (t.reg regVF).toNat = noBorrow (s.reg x) (s.reg regVF) ∧
      (t.reg x).toNat = (256 + (s.reg x).toNat - noBorrow (s.reg x) (s.reg regVF)) % 256 ∧
      t.pc = s.pc + 2 ∧ OnlyRegs [x, regVF] s t ∧ OnlyWrites [.v, .pc] s t) ∧
    (Completes (.subB regVF regVF) s fun t =>
      t.reg regVF = 0 ∧ t.pc = s.pc + 2 ∧ OnlyRegs [regVF] s t ∧ OnlyWrites [.v, .pc] s t) ∧
    (Completes (.subBRev regVF y) s fun t =>
      (t.reg regVF).toNat = (256 + (s.reg y).toNat - noBorrow (s.reg y) (s.reg regVF)) % 256 ∧
      t.pc = s.pc + 2 ∧ OnlyRegs [regVF] s t ∧ OnlyWrites [.v, .pc] s t) ∧
    (Completes (.subBRev x regVF) s fun t =>
      (t.reg regVF).toNat = noBorrow (s.reg regVF) (s.reg x) ∧
      (t.reg x).toNat = (256 + noBorrow (s.reg regVF) (s.reg x) - (s.reg x).toNat) % 256 ∧
      t.pc = s.pc + 2 ∧ OnlyRegs [x, regVF] s t ∧ OnlyWrites [.v, .pc] s t) ∧
    (Completes (.subBRev regVF regVF) s fun t =>
      t.reg regVF = 0 ∧ t.pc = s.pc + 2 ∧ OnlyRegs [regVF] s t ∧ OnlyWrites [.v, .pc] s t) ∧
    (∀ z, Completes (.shr regVF z) s fun t =>
      t.reg regVF = 0 ∧ t.pc = s.pc + 2 ∧ OnlyRegs [regVF] s t ∧ OnlyWrites [.v, .pc] s t) ∧
    (∀ z, Completes (.shl regVF z) s fun t =>
      (t.reg regVF).toNat = 2 * ((s.reg regVF).toNat / 128) ∧ t.pc = s.pc + 2 ∧ OnlyRegs [regVF] s t ∧
      OnlyWrites [.v, .pc] s t)

/-! ## Index register and memory (44_index_memory.md) -/

/-- R101. -/
def Obligations.LoadISetsTheIndex : Prop :=
  ∀ (nnn : Addr12) (s : State), Completes (.loadI nnn) s fun t =>
    t.i.toNat = nnn.toNat ∧ t.pc = s.pc + 2 ∧ OnlyWrites [.i, .pc] s t

/-- AddIndex wraps at 65536 and writes no flag (D10, log 9); LoadFont adds the font's base to five times the whole
register (D11, D29, log 3). -/
def Obligations.IndexArithmetic : Prop :=
  ∀ (x : Reg) (s : State),
    (Completes (.addIndex x) s fun t =>
      t.i.toNat = (s.i.toNat + (s.reg x).toNat) % 65536 ∧ t.pc = s.pc + 2 ∧ OnlyWrites [.i, .pc] s t) ∧
    (Completes (.loadFont x) s fun t =>
      t.i.toNat = 0x050 + 5 * (s.reg x).toNat ∧ t.pc = s.pc + 2 ∧ OnlyWrites [.i, .pc] s t)

/-- StoreBCD: three digits, one a byte, hundreds first, that make up the value again; no other byte changes, and `I` is
kept (checks: D6, D13, log 10). -/
def Obligations.StoreBCDStoresTheDigits : Prop :=
  ∀ (x : Reg) (s : State), s.mem.wf → Writable s 3 → Completes (.storeBCD x) s fun t =>
    (∃ h d u, t.mem.read (dataAddr s 0) = BitVec.ofNat 8 h ∧ t.mem.read (dataAddr s 0 + 1) = BitVec.ofNat 8 d ∧
      t.mem.read (dataAddr s 0 + 2) = BitVec.ofNat 8 u ∧ h ≤ 2 ∧ d ≤ 9 ∧ u ≤ 9 ∧
      100 * h + 10 * d + u = (s.reg x).toNat) ∧
    (∀ a, ¬ InRange s 3 a → t.mem.read a = s.mem.read a) ∧
    t.pc = s.pc + 2 ∧ OnlyWrites [.mem, .pc] s t

/-- StoreRegs: V0 to VX, VX included, at ascending addresses; no other byte changes, and `I` is kept (checks: D6, D13,
log 10). -/
def Obligations.StoreRegsStoresTheRegisters : Prop :=
  ∀ (x : Reg) (s : State), s.mem.wf → Writable s (x.val + 1) → Completes (.storeRegs x) s fun t =>
    (∀ r, r ≤ x → t.mem.read (dataAddr s r.val) = s.reg r) ∧
    (∀ a, ¬ InRange s (x.val + 1) a → t.mem.read a = s.mem.read a) ∧
    t.pc = s.pc + 2 ∧ OnlyWrites [.mem, .pc] s t

/-- LoadRegs: V0 to VX from ascending addresses; the other registers, memory and `I` are kept (check: D6, log 10). -/
def Obligations.LoadRegsLoadsTheRegisters : Prop :=
  ∀ (x : Reg) (s : State), Readable s (x.val + 1) → Completes (.loadRegs x) s fun t =>
    (∀ r, t.reg r = if r ≤ x then s.mem.read (dataAddr s r.val) else s.reg r) ∧
    t.pc = s.pc + 2 ∧ OnlyWrites [.v, .pc] s t

/-- What StoreRegs stored, LoadRegs with the same `I` and memory loads back. -/
def Obligations.LoadRegsUndoesStoreRegs : Prop :=
  ∀ (x : Reg) (s t u : State), s.mem.wf → exec (.storeRegs x) s = .next t → u.mem = t.mem → u.i = t.i →
    Completes (.loadRegs x) u fun r => (∀ q, q ≤ x → r.reg q = s.reg q) ∧ (∀ q, ¬ q ≤ x → r.reg q = u.reg q)

/-- Exactly when an access through `I` faults, and with what (D6, D13, log 10): the range check first, then the font
check. The faults of Draw, LoadRegs, StoreRegs, StoreBCD. -/
def Obligations.IndexAccessFaults : Prop :=
  ∀ (x y : Reg) (n : Nat) (s : State),
    (exec (.draw x y n) s = .fault (.memOutOfRange s.pc (encode (.draw x y n)) s.i) ↔ ¬ Readable s n) ∧
    (exec (.loadRegs x) s = .fault (.memOutOfRange s.pc (encode (.loadRegs x)) s.i) ↔ ¬ Readable s (x.val + 1)) ∧
    (exec (.storeRegs x) s = .fault (.memOutOfRange s.pc (encode (.storeRegs x)) s.i) ↔ ¬ Readable s (x.val + 1)) ∧
    (exec (.storeRegs x) s = .fault (.fontWrite s.pc (encode (.storeRegs x)) s.i) ↔
      Readable s (x.val + 1) ∧ ¬ Writable s (x.val + 1)) ∧
    (exec (.storeBCD x) s = .fault (.memOutOfRange s.pc (encode (.storeBCD x)) s.i) ↔ ¬ Readable s 3) ∧
    (exec (.storeBCD x) s = .fault (.fontWrite s.pc (encode (.storeBCD x)) s.i) ↔ Readable s 3 ∧ ¬ Writable s 3)

/-- A byte stored by StoreRegs is seen by the very next fetch of its address (R50, the spec's own inference). -/
def Obligations.StoredBytesAreFetchedAtOnce : Prop :=
  ∀ (x r q : Reg) (s t : State), s.mem.wf → exec (.storeRegs x) s = .next t → q ≤ x → q.val = r.val + 1 →
    t.pc.toNat = dataAddr s r.val → fetch t = some (wordOfBytes (s.reg r) (s.reg q))

/-! ## Random, keypad, timers (45_random_keypad_timers.md) -/

/-- Rand: a free byte, masked; the draw is used up (D17, log 1; it holds whatever the byte is). -/
def Obligations.RandMasksAFreeByte : Prop :=
  ∀ (x : Reg) (nn : Byte) (s : State), Completes (.rand x nn) s fun t =>
    t.reg x = s.rndByte &&& nn ∧ (nn = 0 → t.reg x = 0) ∧ (nn = 0xFF → t.reg x = s.rndByte) ∧
    t.rndCount = s.rndCount + 1 ∧ t.pc = s.pc + 2 ∧ OnlyRegs [x] s t ∧ OnlyWrites [.v, .pc, .rndCount] s t

/-- SkipKeyDown and SkipKeyUp: the whole of V[X] names the key, and above 15 they fault (D14, log 13). -/
def Obligations.KeypadSkips : Prop :=
  ∀ (x : Reg) (s : State),
    (∀ k : Fin 16, (s.reg x).toNat = k.val →
      (Completes (.skipKeyDown x) s fun t =>
        t.pc = s.pc + (if s.keyDown k then 4 else 2) ∧ OnlyWrites [.pc] s t) ∧
      (Completes (.skipKeyUp x) s fun t =>
        t.pc = s.pc + (if s.keyDown k then 2 else 4) ∧ OnlyWrites [.pc] s t)) ∧
    (15 < (s.reg x).toNat →
      exec (.skipKeyDown x) s = .fault (.keyIndexOutOfRange s.pc (encode (.skipKeyDown x)) (s.reg x)) ∧
      exec (.skipKeyUp x) s = .fault (.keyIndexOutOfRange s.pc (encode (.skipKeyUp x)) (s.reg x)))

/-- R114, R116, R117: ReadDelay, WriteDelay, WriteSound. -/
def Obligations.TimerTransfers : Prop :=
  ∀ (x : Reg) (s : State),
    (Completes (.readDelay x) s fun t =>
      t.reg x = s.dt ∧ t.pc = s.pc + 2 ∧ OnlyRegs [x] s t ∧ OnlyWrites [.v, .pc] s t) ∧
    (Completes (.writeDelay x) s fun t => t.dt = s.reg x ∧ t.pc = s.pc + 2 ∧ OnlyWrites [.dt, .pc] s t) ∧
    (Completes (.writeSound x) s fun t => t.st = s.reg x ∧ t.pc = s.pc + 2 ∧ OnlyWrites [.st, .pc] s t)

/-- WaitKey: the lowest pressed key is reported and its cell cleared; with no key pressed the whole state is unchanged
(scan order: D15, log 13). -/
def Obligations.WaitKeyReportsTheLowestKey : Prop :=
  ∀ (x : Reg) (s : State),
    (∀ k, s.keyDown k = true → (∀ j, j < k → s.keyDown j = false) → Completes (.waitKey x) s fun t =>
      (t.reg x).toNat = k.val ∧ (∀ j, t.keyDown j = if j = k then false else s.keyDown j) ∧
      t.pc = s.pc + 2 ∧ OnlyRegs [x] s t ∧ OnlyWrites [.v, .key, .pc] s t) ∧
    ((∀ j, s.keyDown j = false) → exec (.waitKey x) s = .next s)

/-- A program that waits for a key with none pressed waits through any steps, ticks and reads of the host, and one
`set_key(k, true)` and one step later it is past the WaitKey with the key in V[X] and the cell clear. -/
def Obligations.SetKeyEndsTheWait : Prop :=
  ∀ (x : Reg) (k : Nat) (rnd : Byte) (c : Session) (pre : List Operation),
    c.machine.pc.toNat ≤ 0xFFE →
    decode [c.machine.mem.read c.machine.pc.toNat, c.machine.mem.read (c.machine.pc.toNat + 1)] = .ok (.waitKey x, []) →
    (∀ j, c.machine.keyDown j = false) → k < 16 →
    (∀ op ∈ pre, (∃ b, op = .step b) ∨ op = .tickTimers ∨ op = .clearDrawFlag ∨ op = .snapshot) →
    ∃ outs d, performAll (pre ++ [.setKey k true, .step rnd]) c = .ok (outs, d) ∧
      d.machine.pc = c.machine.pc + 2 ∧ (d.machine.reg x).toNat = k ∧ (∀ j, d.machine.keyDown j = false) ∧
      OnlyRegs [x] c.machine d.machine ∧ OnlyWrites [.v, .pc, .dt, .st, .drawFlag] c.machine d.machine

/-! ## Timers and the host's operations (60_exceptions.md) -/

/-- R131: one tick. -/
def Obligations.TickCountsDownAndSounds : Prop :=
  ∀ c : Session, ∃ t tone,
    perform .tickTimers c = .ok (.tone tone, { machine := t, phase := c.phase }) ∧
    (tone = true ↔ c.machine.st.toNat = 1) ∧ t.dt.toNat = c.machine.dt.toNat - 1 ∧
    t.st.toNat = c.machine.st.toNat - 1 ∧ OnlyWrites [.dt, .st] c.machine t

/-- N ticks take N off each timer, floored at 0, and the tone sounds on exactly one of them, the one that takes ST from 1
to 0 (R131). -/
def Obligations.TicksDriveTimersToZero : Prop :=
  ∀ (n : Nat) (c : Session), ∃ outs d,
    performAll (List.replicate n .tickTimers) c = .ok (outs, d) ∧
    d.machine.dt.toNat = c.machine.dt.toNat - n ∧ d.machine.st.toNat = c.machine.st.toNat - n ∧
    outs.length = n ∧ (∀ k, k < n → outs[k]? = some (.tone (k + 1 == c.machine.st.toNat))) ∧
    OnlyWrites [.dt, .st] c.machine d.machine

/-- `set_key` writes one cell; an index of 16 or more is no operation (D26, log 16); of the instructions only WaitKey writes the
keypad. -/
def Obligations.SetKeyWritesOneKey : Prop :=
  (∀ (k : Nat) (pressed : Bool) (c : Session),
    (∀ j : Fin 16, j.val = k → ∃ t, perform (.setKey k pressed) c = .ok (.nothing, { machine := t, phase := c.phase }) ∧
      (∀ q, t.keyDown q = if q = j then pressed else c.machine.keyDown q) ∧ OnlyWrites [.key] c.machine t) ∧
    (16 ≤ k → perform (.setKey k pressed) c = .error .noSuchKey)) ∧
  (∀ (i : Instr) (s t : State), exec i s = .next t → (∀ x, i ≠ .waitKey x) → ∀ q, t.keyDown q = s.keyDown q)

/-- R142, R143: the renderer's two operations. -/
def Obligations.RendererOperations : Prop :=
  ∀ c : Session,
    (∃ t, perform .clearDrawFlag c = .ok (.nothing, { machine := t, phase := c.phase }) ∧ t.drawFlag = false ∧
      OnlyWrites [.drawFlag] c.machine t) ∧
    perform .snapshot c = .ok (.snapshot c.machine, c)

/-- Any sequence of the operations a host may issue while a program runs is carried out, faults included (R144). -/
def Obligations.RunningOperationsAlwaysComplete : Prop :=
  ∀ (ops : List Operation) (c : Session), (∀ op ∈ ops, whileRunning op = true) →
    ∃ outs d, performAll ops c = .ok (outs, d) ∧ outs.length = ops.length

/-! ## The whole machine -/

/-- Every instruction writes only what R29 lists for it (with the model's draw counter for Rand, log 1), only the
registers named, and only the bytes it stores. -/
def Obligations.InstructionsWriteOnlyWhatIsListed : Prop :=
  ∀ (i : Instr) (s t : State), s.mem.wf → exec i s = .next t →
    OnlyWrites (writes i) s t ∧ OnlyRegs (regsWritten i) s t ∧
    ∀ a, ¬ InRange s (bytesStored i) a → t.mem.read a = s.mem.read a

/-- pc advances by 2, or by 4 on a taken skip, except at a control transfer and a WaitKey that waits (R13). -/
def Obligations.OnlyTransfersAndSkipsDoMoreThanAdvance : Prop :=
  ∀ (i : Instr) (s t : State), exec i s = .next t → isTransfer i = false →
    t.pc = s.pc + 2 ∨ (isSkip i = true ∧ t.pc = s.pc + 4) ∨ ((∃ x, i = .waitKey x) ∧ t = s)

/-- An instruction answers a next state exactly when the program respects what it must (R160, the spec's own inference;
checks: D4, D5, D6, D13, D14). -/
def Obligations.CompletesExactlyWhenPermitted : Prop :=
  ∀ (i : Instr) (s : State), (∃ t, exec i s = .next t) ↔ Permitted i s

/-- The invariant holds after reset. -/
def Obligations.ResetMeetsTheInvariant : Prop := Safety.Inv State.reset

/-- Every step keeps the invariant: canonical memory inside its space, the font intact (D13, log 10), pc at most 0x10FE
and every stacked return address one a Call was fetched at (the fetch check: D7, log 12). -/
def Obligations.StepKeepsTheInvariant : Prop :=
  ∀ s t : State, Safety.Inv s → step s = .next t → Safety.Inv t

/-- Every sequence of the seven operations keeps the invariant. It rests on the font-write fault (D13, log 10), the fetch
check (D7, log 12) and the bound on an image (D19, log 16). -/
def Obligations.OperationsKeepTheInvariant : Prop :=
  ∀ (ops : List Operation) (c d : Session) (outs : List Output),
    Safety.Inv c.machine → performAll ops c = .ok (outs, d) → Safety.Inv d.machine

/-- No instruction reads the draw flag or the sound timer: two states that differ in nothing else step alike. -/
def Obligations.DrawFlagAndSoundTimerAreNeverRead : Prop :=
  ∀ s t : State, SameButDrawAndSound s t →
    EndAlike (step s) (step t) ∧ ∀ rnd, EndAlike (stepWith rnd s) (stepWith rnd t)

/-- The end of a run is final: from there every step is OK and changes nothing, and through any operations short of reset
and load only the timers, the keypad and the draw flag change (D23, log 19). -/
def Obligations.EndOfRunIsFinal : Prop :=
  ∀ (ops : List Operation) (c d : Session) (outs : List Output),
    atEnd c.machine = true → (∀ op ∈ ops, whileRunning op = true) → performAll ops c = .ok (outs, d) →
    atEnd d.machine = true ∧ step d.machine = .next d.machine ∧ stepReport d.machine = some (.ok, d.machine) ∧
    (∀ rnd, stepReportWith rnd d.machine = some (.ok, d.machine)) ∧
    (∀ r, Output.status r ∈ outs → r = .ok) ∧ OnlyWrites [.dt, .st, .key, .drawFlag] c.machine d.machine

/-- CXNN alone reads the step's input: any other step is the same whatever is presented; a CXNN masks it into V[X]; and a
step with none presented is the step presented with the next free value, which it uses up (D17, log 1). -/
def Obligations.RandAloneReadsTheInput : Prop :=
  ∀ (s : State) (rnd : Byte),
    ((∀ x nn, fetch s ≠ some (encode (.rand x nn))) → stepWith rnd s = step s) ∧
    (∀ x nn, fetch s = some (encode (.rand x nn)) →
      (∃ t, stepWith rnd s = .next t ∧ t.reg x = rnd &&& nn ∧ t.pc = s.pc + 2 ∧ OnlyRegs [x] s t ∧
        OnlyWrites [.v, .pc] s t) ∧
      ∃ t, stepWith s.rndByte s = .next t ∧ step s = .next { t with rndCount := s.rndCount + 1 })
end

