-- ==== Sys2Proof/Laws/Decode.lean ====
section
/-! SUPPORT. The fields of an encoded word, and a word put together again from its fields. -/

namespace Sys2Proof.Laws

/-! ## Words the encoders make -/

theorem toNat_encodeNNN {f : Nat} (hf : f < 16) (a : Addr12) : (encodeNNN f a).toNat = f * 4096 + a.toNat := by
  have := a.isLt
  simp only [encodeNNN, BitVec.toNat_ofNat]
  omega

theorem toNat_encodeXNN {f : Nat} (hf : f < 16) (x : Reg) (nn : Byte) :
    (encodeXNN f x nn).toNat = f * 4096 + x.val * 256 + nn.toNat := by
  have := x.isLt
  have := nn.isLt
  simp only [encodeXNN, BitVec.toNat_ofNat]
  omega

theorem toNat_encodeXYN {f : Nat} (hf : f < 16) (x y : Reg) {n : Nat} (hn : n < 16) :
    (encodeXYN f x y n).toNat = f * 4096 + x.val * 256 + y.val * 16 + n := by
  have := x.isLt
  have := y.isLt
  simp only [encodeXYN, BitVec.toNat_ofNat]
  omega

/-! ## Their fields -/

theorem fieldF_encodeNNN {f : Nat} (hf : f < 16) (a : Addr12) : fieldF (encodeNNN f a) = f := by
  have := a.isLt
  simp only [fieldF, toNat_encodeNNN hf]
  omega

theorem fieldNNN_encodeNNN {f : Nat} (hf : f < 16) (a : Addr12) : fieldNNN (encodeNNN f a) = a := by
  have := a.isLt
  apply BitVec.eq_of_toNat_eq
  simp only [fieldNNN, toNat_encodeNNN hf, BitVec.toNat_ofNat]
  omega

theorem fieldF_encodeXNN {f : Nat} (hf : f < 16) (x : Reg) (nn : Byte) : fieldF (encodeXNN f x nn) = f := by
  have := x.isLt
  have := nn.isLt
  simp only [fieldF, toNat_encodeXNN hf]
  omega

theorem fieldX_encodeXNN {f : Nat} (hf : f < 16) (x : Reg) (nn : Byte) : fieldX (encodeXNN f x nn) = x := by
  have := x.isLt
  have := nn.isLt
  apply Fin.ext
  simp only [fieldX, toNat_encodeXNN hf]
  omega

theorem fieldNN_encodeXNN {f : Nat} (hf : f < 16) (x : Reg) (nn : Byte) : fieldNN (encodeXNN f x nn) = nn := by
  have := nn.isLt
  apply BitVec.eq_of_toNat_eq
  simp only [fieldNN, toNat_encodeXNN hf, BitVec.toNat_ofNat]
  omega

theorem fieldF_encodeXYN {f : Nat} (hf : f < 16) (x y : Reg) {n : Nat} (hn : n < 16) :
    fieldF (encodeXYN f x y n) = f := by
  have := x.isLt
  have := y.isLt
  simp only [fieldF, toNat_encodeXYN hf x y hn]
  omega

theorem fieldX_encodeXYN {f : Nat} (hf : f < 16) (x y : Reg) {n : Nat} (hn : n < 16) :
    fieldX (encodeXYN f x y n) = x := by
  have := x.isLt
  have := y.isLt
  apply Fin.ext
  simp only [fieldX, toNat_encodeXYN hf x y hn]
  omega

theorem fieldY_encodeXYN {f : Nat} (hf : f < 16) (x y : Reg) {n : Nat} (hn : n < 16) :
    fieldY (encodeXYN f x y n) = y := by
  have := y.isLt
  apply Fin.ext
  simp only [fieldY, toNat_encodeXYN hf x y hn]
  omega

theorem fieldN_encodeXYN {f : Nat} (hf : f < 16) (x y : Reg) {n : Nat} (hn : n < 16) :
    fieldN (encodeXYN f x y n) = n := by
  simp only [fieldN, toNat_encodeXYN hf x y hn]
  omega

/-! ## A word from its fields -/

theorem fieldF_lt (w : Word) : fieldF w < 16 := by
  have := w.isLt
  simp only [fieldF]
  omega

theorem fieldN_lt (w : Word) : fieldN w < 16 := Nat.mod_lt _ (by decide)

theorem encodeNNN_fields (w : Word) : encodeNNN (fieldF w) (fieldNNN w) = w := by
  have := w.isLt
  apply BitVec.eq_of_toNat_eq
  rw [toNat_encodeNNN (fieldF_lt w)]
  simp only [fieldF, fieldNNN, BitVec.toNat_ofNat]
  omega

theorem encodeXNN_fields (w : Word) : encodeXNN (fieldF w) (fieldX w) (fieldNN w) = w := by
  have := w.isLt
  apply BitVec.eq_of_toNat_eq
  rw [toNat_encodeXNN (fieldF_lt w)]
  simp only [fieldF, fieldX, fieldNN, BitVec.toNat_ofNat]
  omega

theorem encodeXYN_fields (w : Word) : encodeXYN (fieldF w) (fieldX w) (fieldY w) (fieldN w) = w := by
  have := w.isLt
  apply BitVec.eq_of_toNat_eq
  rw [toNat_encodeXYN (fieldF_lt w) _ _ (fieldN_lt w)]
  simp only [fieldF, fieldX, fieldY, fieldN]
  omega

/-! ## The masks of the opcode map, as numbers -/

theorem toNat_and_F000 (w : Word) : (w &&& 0xF000#16).toNat = w.toNat / 4096 * 4096 := by
  have hw := w.isLt
  have h : w &&& 0xF000#16 = w >>> 12 <<< 12 := by
    apply BitVec.eq_of_getLsbD_eq
    intro i hi
    interval_cases i <;> simp
  rw [h]
  simp only [BitVec.toNat_shiftLeft, BitVec.toNat_ushiftRight, Nat.shiftRight_eq_div_pow, Nat.shiftLeft_eq]
  omega

theorem toNat_and_F00F (w : Word) : (w &&& 0xF00F#16).toNat = w.toNat / 4096 * 4096 + w.toNat % 16 := by
  have h : w &&& 0xF00F#16 = (w &&& 0xF000#16) ||| (w &&& 0x000F#16) := by
    rw [← BitVec.and_or_distrib_left]
    rfl
  have h4 : (w &&& 0x000F#16).toNat = w.toNat % 16 := Nat.and_two_pow_sub_one_eq_mod w.toNat 4
  rw [h, BitVec.toNat_or, toNat_and_F000, h4, Nat.mul_comm]
  exact (Nat.two_pow_add_eq_or_of_lt (i := 12) (by omega) _).symm

theorem toNat_and_F0FF (w : Word) : (w &&& 0xF0FF#16).toNat = w.toNat / 4096 * 4096 + w.toNat % 256 := by
  have h : w &&& 0xF0FF#16 = (w &&& 0xF000#16) ||| (w &&& 0x00FF#16) := by
    rw [← BitVec.and_or_distrib_left]
    rfl
  have h8 : (w &&& 0x00FF#16).toNat = w.toNat % 256 := Nat.and_two_pow_sub_one_eq_mod w.toNat 8
  rw [h, BitVec.toNat_or, toNat_and_F000, h8, Nat.mul_comm]
  exact (Nat.two_pow_add_eq_or_of_lt (i := 12) (by omega) _).symm

theorem toNat_and_FFFF (w : Word) : (w &&& 0xFFFF#16).toNat = w.toNat := by
  rw [show (0xFFFF#16) = BitVec.allOnes 16 from rfl, BitVec.and_allOnes]

end Sys2Proof.Laws
end

