-- ==== Sys2Proof/Laws/Memory.lean ====
section
/-! SUPPORT. Memory is plain storage (20_memory.md R45): what a read gives after a write, and that every write keeps the
canonical form. -/

namespace Sys2Proof.Laws

open Sys2Proof.Machine

@[simp] theorem read_nil (a : Nat) : Memory.read [] a = resetByte a := rfl

theorem read_cons (k : Nat) (b : Byte) (m : Memory) (a : Nat) :
    Memory.read ((k, b) :: m) a = if k = a then b else m.read a := rfl

/-- An address no cell lists reads as its reset contents. -/
theorem read_of_forall_ne {m : Memory} {a : Nat} (h : ∀ c ∈ m, c.1 ≠ a) : m.read a = resetByte a := by
  induction m with
  | nil => rfl
  | cons c m ih =>
    rw [read_cons, if_neg (h c (by simp))]
    exact ih fun d hd => h d (by simp [hd])

theorem mem_put {m : Memory} {a : Nat} {b : Byte} {c : Host.Cell} (h : c ∈ m.put a b) : c = (a, b) ∨ c ∈ m := by
  induction m with
  | nil => simpa [Memory.put] using h
  | cons d m ih =>
    simp only [Memory.put] at h
    split_ifs at h
    · simpa using h
    · rcases List.mem_cons.mp h with h | h
      · exact .inl h
      · exact .inr (by simp [h])
    · rcases List.mem_cons.mp h with h | h
      · exact .inr (by simp [h])
      · rcases ih h with h | h
        · exact .inl h
        · exact .inr (by simp [h])

theorem erase_sublist (m : Memory) (a : Nat) : (m.erase a).Sublist m := by
  induction m with
  | nil => exact .refl _
  | cons d m ih =>
    simp only [Memory.erase]
    split_ifs
    · exact List.sublist_cons_self _ _
    · exact ih.cons_cons _

theorem put_pairwise {m : Memory} (h : m.Pairwise (fun c d => c.1 < d.1)) (a : Nat) (b : Byte) :
    (m.put a b).Pairwise (fun c d => c.1 < d.1) := by
  induction m with
  | nil => simp [Memory.put]
  | cons d m ih =>
    obtain ⟨hd, hm⟩ := List.pairwise_cons.mp h
    simp only [Memory.put]
    split_ifs with h1 h2
    · refine List.pairwise_cons.mpr ⟨fun c hc => ?_, h⟩
      rcases List.mem_cons.mp hc with rfl | hc
      · exact h1
      · exact lt_trans h1 (hd c hc)
    · exact List.pairwise_cons.mpr ⟨fun c hc => by simpa [h2] using hd c hc, hm⟩
    · refine List.pairwise_cons.mpr ⟨fun c hc => ?_, ih hm⟩
      rcases mem_put hc with rfl | hc
      · simp only; omega
      · exact hd c hc

/-- A write keeps the canonical form. -/
theorem write_wf {m : Memory} (h : m.wf) (a : Nat) (b : Byte) : (m.write a b).wf := by
  unfold Memory.write
  split_ifs with hb
  · exact ⟨h.1.sublist (erase_sublist m a), fun c hc => h.2 c ((erase_sublist m a).subset hc)⟩
  · refine ⟨put_pairwise h.1 a b, fun c hc => ?_⟩
    rcases mem_put hc with rfl | hc
    · exact hb
    · exact h.2 c hc

theorem read_put (m : Memory) (a : Nat) (b : Byte) (k : Nat) :
    (m.put a b).read k = if k = a then b else m.read k := by
  induction m with
  | nil => simp only [Memory.put, read_cons, eq_comm]
  | cons d m ih =>
    obtain ⟨j, c⟩ := d
    by_cases hk : k = a
    · subst hk
      rw [if_pos rfl] at ih ⊢
      simp only [Memory.put]
      split_ifs with h1 h2 <;> simp only [read_cons, ih, if_true]
      exact if_neg (Ne.symm h2)
    · rw [if_neg hk] at ih ⊢
      have hak : ¬ a = k := Ne.symm hk
      simp only [Memory.put]
      split_ifs with h1 h2 <;> simp only [read_cons, ih, if_neg hak]
      rw [if_neg (h2 ▸ hak)]

theorem read_erase {m : Memory} (h : m.Pairwise (fun c d => c.1 < d.1)) (a k : Nat) :
    (m.erase a).read k = if k = a then resetByte a else m.read k := by
  induction m with
  | nil => split_ifs with h <;> simp [Memory.erase, h]
  | cons d m ih =>
    obtain ⟨hd, hm⟩ := List.pairwise_cons.mp h
    simp only [Memory.erase]
    split_ifs with h1 h2
    · subst h2
      exact read_of_forall_ne fun c hc => by have := hd c hc; omega
    · rw [read_cons, if_neg (by omega)]
    · rename_i h2
      rw [read_cons, ih hm, h2, if_neg h1, if_pos rfl]
    · rename_i h2
      rw [read_cons, read_cons, ih hm, if_neg h2]

/-- A read after a write: the written byte at its address, everywhere else what was there. -/
theorem read_write {m : Memory} (h : m.wf) (a : Nat) (b : Byte) (k : Nat) :
    (m.write a b).read k = if k = a then b else m.read k := by
  unfold Memory.write
  split_ifs with hb hk hk
  · rw [read_erase h.1, if_pos hk, hb]
  · rw [read_erase h.1, if_neg hk]
  · rw [read_put, if_pos hk]
  · rw [read_put, if_neg hk]

/-- Writing bytes at ascending addresses keeps the canonical form. -/
theorem writeBytes_wf {m : Memory} (h : m.wf) (a : Nat) (bs : List Byte) : (m.writeBytes a bs).wf := by
  induction bs generalizing m a with
  | nil => exact h
  | cons b bs ih => exact ih (write_wf h a b) (a + 1)

/-- A read after bytes are written: the byte written at that place, everywhere else what was there. -/
theorem read_writeBytes {m : Memory} (h : m.wf) (a : Nat) (bs : List Byte) (k : Nat) :
    (m.writeBytes a bs).read k = if a ≤ k ∧ k < a + bs.length then bs.getD (k - a) 0 else m.read k := by
  induction bs generalizing m a with
  | nil => simp only [Memory.writeBytes, List.length_nil]; rw [if_neg (by omega)]
  | cons b bs ih =>
    simp only [Memory.writeBytes, ih (write_wf h a b), read_write h, List.length_cons]
    rcases Nat.lt_trichotomy k a with hk | rfl | hk
    · rw [if_neg (by omega), if_neg (by omega), if_neg (by omega)]
    · rw [if_neg (by omega), if_pos rfl, if_pos (by omega)]; simp
    · obtain ⟨j, rfl⟩ : ∃ j, k = a + 1 + j := ⟨k - (a + 1), by omega⟩
      by_cases hj : j < bs.length
      · rw [if_pos (by omega), if_pos (by omega)]
        simp [show a + 1 + j - a = j + 1 by omega]
      · rw [if_neg (by omega), if_neg (by omega), if_neg (by omega)]

theorem write_inSpace {m : Memory} (h : m.inSpace) {a : Nat} (ha : a < Config.memSize) (b : Byte) :
    (m.write a b).inSpace := by
  unfold Memory.write
  split_ifs
  · exact fun c hc => h c ((erase_sublist m a).subset hc)
  · intro c hc
    rcases mem_put hc with rfl | hc
    · exact ha
    · exact h c hc

/-- Bytes written inside the address space leave only addresses of the space listed. -/
theorem writeBytes_inSpace {m : Memory} (h : m.inSpace) {a : Nat} {bs : List Byte}
    (ha : a + bs.length ≤ Config.memSize) : (m.writeBytes a bs).inSpace := by
  induction bs generalizing m a with
  | nil => exact h
  | cons b bs ih =>
    simp only [List.length_cons] at ha
    exact ih (write_inSpace h (by omega) b) (by omega)

@[simp] theorem length_readBytes (m : Memory) (a n : Nat) : (m.readBytes a n).length = n := by
  induction n generalizing a with
  | zero => rfl
  | succ n ih => simp [Memory.readBytes, ih]

theorem getD_readBytes (m : Memory) (a : Nat) {n k : Nat} (h : k < n) (d : Byte) :
    (m.readBytes a n).getD k d = m.read (a + k) := by
  induction n generalizing a k with
  | zero => omega
  | succ n ih =>
    cases k with
    | zero => rfl
    | succ k =>
      have := ih (a + 1) (k := k) (by omega)
      simpa [Memory.readBytes, Nat.add_comm, Nat.add_left_comm] using this

/-- Two memories in canonical form that read alike are the same list. -/
theorem eq_of_read_eq {m n : Memory} (hm : m.wf) (hn : n.wf) (h : ∀ a, m.read a = n.read a) : m = n := by
  induction m generalizing n with
  | nil =>
    cases n with
    | nil => rfl
    | cons d n =>
      have := h d.1
      rw [read_cons, if_pos rfl] at this
      exact absurd this.symm (hn.2 d (by simp))
  | cons c m ih =>
    obtain ⟨hc, hm'⟩ := List.pairwise_cons.mp hm.1
    have hm2 : Memory.wf m := ⟨hm', fun e he => hm.2 e (by simp [he])⟩
    cases n with
    | nil =>
      have := h c.1
      rw [read_cons, if_pos rfl] at this
      exact absurd this (hm.2 c (by simp))
    | cons d n =>
      obtain ⟨hd, hn'⟩ := List.pairwise_cons.mp hn.1
      have hn2 : Memory.wf n := ⟨hn', fun e he => hn.2 e (by simp [he])⟩
      have hmc : Memory.read m c.1 = resetByte c.1 :=
        read_of_forall_ne fun e he => by have := hc e he; omega
      have hnd : Memory.read n d.1 = resetByte d.1 :=
        read_of_forall_ne fun e he => by have := hd e he; omega
      rcases Nat.lt_trichotomy c.1 d.1 with hcd | hcd | hcd
      · have := h c.1
        rw [read_cons, if_pos rfl, read_cons, if_neg (by omega),
          read_of_forall_ne fun e he => by have := hd e he; omega] at this
        exact absurd this (hm.2 c (by simp))
      · have hv := h c.1
        rw [read_cons, if_pos rfl, read_cons, if_pos hcd.symm] at hv
        have hcd' : c = d := Prod.ext hcd hv
        subst hcd'
        refine congrArg _ (ih hm2 hn2 fun a => ?_)
        by_cases ha : c.1 = a
        · subst ha; rw [hmc, hnd]
        · have := h a
          rwa [read_cons, read_cons, if_neg ha, if_neg ha] at this
      · have := h d.1
        rw [read_cons, if_neg (by omega), read_cons, if_pos rfl,
          read_of_forall_ne fun e he => by have := hc e he; omega] at this
        exact absurd this.symm (hn.2 d (by simp))

end Sys2Proof.Laws
end

