-- ==== Sys2Proof/Laws/State.lean ====
section
/-! SUPPORT. One lemma per field of the state per named update, true by definition, so that no proof unfolds a record
update; and what the accessors read after an update. -/

namespace Sys2Proof.Laws

open Sys2Proof.Machine

/-! ## setReg -/

@[simp] theorem setReg_i (s : State) (r : Reg) (b : Byte) : (s.setReg r b).i = s.i := rfl
@[simp] theorem setReg_pc (s : State) (r : Reg) (b : Byte) : (s.setReg r b).pc = s.pc := rfl
@[simp] theorem setReg_stack (s : State) (r : Reg) (b : Byte) : (s.setReg r b).stack = s.stack := rfl
@[simp] theorem setReg_sp (s : State) (r : Reg) (b : Byte) : (s.setReg r b).sp = s.sp := rfl
@[simp] theorem setReg_dt (s : State) (r : Reg) (b : Byte) : (s.setReg r b).dt = s.dt := rfl
@[simp] theorem setReg_st (s : State) (r : Reg) (b : Byte) : (s.setReg r b).st = s.st := rfl
@[simp] theorem setReg_key (s : State) (r : Reg) (b : Byte) : (s.setReg r b).key = s.key := rfl
@[simp] theorem setReg_fb (s : State) (r : Reg) (b : Byte) : (s.setReg r b).fb = s.fb := rfl
@[simp] theorem setReg_drawFlag (s : State) (r : Reg) (b : Byte) : (s.setReg r b).drawFlag = s.drawFlag := rfl
@[simp] theorem setReg_mem (s : State) (r : Reg) (b : Byte) : (s.setReg r b).mem = s.mem := rfl
@[simp] theorem setReg_rndCount (s : State) (r : Reg) (b : Byte) : (s.setReg r b).rndCount = s.rndCount := rfl

/-! ## advance -/

@[simp] theorem advance_v (s : State) : s.advance.v = s.v := rfl
@[simp] theorem advance_i (s : State) : s.advance.i = s.i := rfl
@[simp] theorem advance_pc (s : State) : s.advance.pc = s.pc + 2 := rfl
@[simp] theorem advance_stack (s : State) : s.advance.stack = s.stack := rfl
@[simp] theorem advance_sp (s : State) : s.advance.sp = s.sp := rfl
@[simp] theorem advance_dt (s : State) : s.advance.dt = s.dt := rfl
@[simp] theorem advance_st (s : State) : s.advance.st = s.st := rfl
@[simp] theorem advance_key (s : State) : s.advance.key = s.key := rfl
@[simp] theorem advance_fb (s : State) : s.advance.fb = s.fb := rfl
@[simp] theorem advance_drawFlag (s : State) : s.advance.drawFlag = s.drawFlag := rfl
@[simp] theorem advance_mem (s : State) : s.advance.mem = s.mem := rfl
@[simp] theorem advance_rndCount (s : State) : s.advance.rndCount = s.rndCount := rfl

/-! ## skipIf -/

@[simp] theorem skipIf_v (s : State) (c : Bool) : (s.skipIf c).v = s.v := rfl
@[simp] theorem skipIf_i (s : State) (c : Bool) : (s.skipIf c).i = s.i := rfl
@[simp] theorem skipIf_pc (s : State) (c : Bool) : (s.skipIf c).pc = if c then s.pc + 4 else s.pc + 2 := rfl
@[simp] theorem skipIf_stack (s : State) (c : Bool) : (s.skipIf c).stack = s.stack := rfl
@[simp] theorem skipIf_sp (s : State) (c : Bool) : (s.skipIf c).sp = s.sp := rfl
@[simp] theorem skipIf_dt (s : State) (c : Bool) : (s.skipIf c).dt = s.dt := rfl
@[simp] theorem skipIf_st (s : State) (c : Bool) : (s.skipIf c).st = s.st := rfl
@[simp] theorem skipIf_key (s : State) (c : Bool) : (s.skipIf c).key = s.key := rfl
@[simp] theorem skipIf_fb (s : State) (c : Bool) : (s.skipIf c).fb = s.fb := rfl
@[simp] theorem skipIf_drawFlag (s : State) (c : Bool) : (s.skipIf c).drawFlag = s.drawFlag := rfl
@[simp] theorem skipIf_mem (s : State) (c : Bool) : (s.skipIf c).mem = s.mem := rfl
@[simp] theorem skipIf_rndCount (s : State) (c : Bool) : (s.skipIf c).rndCount = s.rndCount := rfl

/-! ## jumpTo -/

@[simp] theorem jumpTo_v (s : State) (a : Word) : (s.jumpTo a).v = s.v := rfl
@[simp] theorem jumpTo_i (s : State) (a : Word) : (s.jumpTo a).i = s.i := rfl
@[simp] theorem jumpTo_pc (s : State) (a : Word) : (s.jumpTo a).pc = a := rfl
@[simp] theorem jumpTo_stack (s : State) (a : Word) : (s.jumpTo a).stack = s.stack := rfl
@[simp] theorem jumpTo_sp (s : State) (a : Word) : (s.jumpTo a).sp = s.sp := rfl
@[simp] theorem jumpTo_dt (s : State) (a : Word) : (s.jumpTo a).dt = s.dt := rfl
@[simp] theorem jumpTo_st (s : State) (a : Word) : (s.jumpTo a).st = s.st := rfl
@[simp] theorem jumpTo_key (s : State) (a : Word) : (s.jumpTo a).key = s.key := rfl
@[simp] theorem jumpTo_fb (s : State) (a : Word) : (s.jumpTo a).fb = s.fb := rfl
@[simp] theorem jumpTo_drawFlag (s : State) (a : Word) : (s.jumpTo a).drawFlag = s.drawFlag := rfl
@[simp] theorem jumpTo_mem (s : State) (a : Word) : (s.jumpTo a).mem = s.mem := rfl
@[simp] theorem jumpTo_rndCount (s : State) (a : Word) : (s.jumpTo a).rndCount = s.rndCount := rfl

/-! ## writeAtI -/

@[simp] theorem writeAtI_v (s : State) (bs : List Byte) : (s.writeAtI bs).v = s.v := rfl
@[simp] theorem writeAtI_i (s : State) (bs : List Byte) : (s.writeAtI bs).i = s.i := rfl
@[simp] theorem writeAtI_pc (s : State) (bs : List Byte) : (s.writeAtI bs).pc = s.pc := rfl
@[simp] theorem writeAtI_stack (s : State) (bs : List Byte) : (s.writeAtI bs).stack = s.stack := rfl
@[simp] theorem writeAtI_sp (s : State) (bs : List Byte) : (s.writeAtI bs).sp = s.sp := rfl
@[simp] theorem writeAtI_dt (s : State) (bs : List Byte) : (s.writeAtI bs).dt = s.dt := rfl
@[simp] theorem writeAtI_st (s : State) (bs : List Byte) : (s.writeAtI bs).st = s.st := rfl
@[simp] theorem writeAtI_key (s : State) (bs : List Byte) : (s.writeAtI bs).key = s.key := rfl
@[simp] theorem writeAtI_fb (s : State) (bs : List Byte) : (s.writeAtI bs).fb = s.fb := rfl
@[simp] theorem writeAtI_drawFlag (s : State) (bs : List Byte) : (s.writeAtI bs).drawFlag = s.drawFlag := rfl
@[simp] theorem writeAtI_mem (s : State) (bs : List Byte) : (s.writeAtI bs).mem = s.mem.writeBytes (dataAddr s 0) bs := rfl
@[simp] theorem writeAtI_rndCount (s : State) (bs : List Byte) : (s.writeAtI bs).rndCount = s.rndCount := rfl

/-! ## setKeyCell -/

@[simp] theorem setKeyCell_v (s : State) (k : Fin 16) (p : Bool) : (s.setKeyCell k p).v = s.v := rfl
@[simp] theorem setKeyCell_i (s : State) (k : Fin 16) (p : Bool) : (s.setKeyCell k p).i = s.i := rfl
@[simp] theorem setKeyCell_pc (s : State) (k : Fin 16) (p : Bool) : (s.setKeyCell k p).pc = s.pc := rfl
@[simp] theorem setKeyCell_stack (s : State) (k : Fin 16) (p : Bool) : (s.setKeyCell k p).stack = s.stack := rfl
@[simp] theorem setKeyCell_sp (s : State) (k : Fin 16) (p : Bool) : (s.setKeyCell k p).sp = s.sp := rfl
@[simp] theorem setKeyCell_dt (s : State) (k : Fin 16) (p : Bool) : (s.setKeyCell k p).dt = s.dt := rfl
@[simp] theorem setKeyCell_st (s : State) (k : Fin 16) (p : Bool) : (s.setKeyCell k p).st = s.st := rfl
@[simp] theorem setKeyCell_fb (s : State) (k : Fin 16) (p : Bool) : (s.setKeyCell k p).fb = s.fb := rfl
@[simp] theorem setKeyCell_drawFlag (s : State) (k : Fin 16) (p : Bool) : (s.setKeyCell k p).drawFlag = s.drawFlag := rfl
@[simp] theorem setKeyCell_mem (s : State) (k : Fin 16) (p : Bool) : (s.setKeyCell k p).mem = s.mem := rfl
@[simp] theorem setKeyCell_rndCount (s : State) (k : Fin 16) (p : Bool) : (s.setKeyCell k p).rndCount = s.rndCount := rfl

/-! ## rndDrawn -/

@[simp] theorem rndDrawn_v (s : State) : s.rndDrawn.v = s.v := rfl
@[simp] theorem rndDrawn_i (s : State) : s.rndDrawn.i = s.i := rfl
@[simp] theorem rndDrawn_pc (s : State) : s.rndDrawn.pc = s.pc := rfl
@[simp] theorem rndDrawn_stack (s : State) : s.rndDrawn.stack = s.stack := rfl
@[simp] theorem rndDrawn_sp (s : State) : s.rndDrawn.sp = s.sp := rfl
@[simp] theorem rndDrawn_dt (s : State) : s.rndDrawn.dt = s.dt := rfl
@[simp] theorem rndDrawn_st (s : State) : s.rndDrawn.st = s.st := rfl
@[simp] theorem rndDrawn_key (s : State) : s.rndDrawn.key = s.key := rfl
@[simp] theorem rndDrawn_fb (s : State) : s.rndDrawn.fb = s.fb := rfl
@[simp] theorem rndDrawn_drawFlag (s : State) : s.rndDrawn.drawFlag = s.drawFlag := rfl
@[simp] theorem rndDrawn_mem (s : State) : s.rndDrawn.mem = s.mem := rfl
@[simp] theorem rndDrawn_rndCount (s : State) : s.rndDrawn.rndCount = s.rndCount + 1 := rfl

/-! ## tickTimers -/

@[simp] theorem tickTimers_v (s : State) : (tickTimers s).v = s.v := rfl
@[simp] theorem tickTimers_i (s : State) : (tickTimers s).i = s.i := rfl
@[simp] theorem tickTimers_pc (s : State) : (tickTimers s).pc = s.pc := rfl
@[simp] theorem tickTimers_stack (s : State) : (tickTimers s).stack = s.stack := rfl
@[simp] theorem tickTimers_sp (s : State) : (tickTimers s).sp = s.sp := rfl
@[simp] theorem tickTimers_dt (s : State) : (tickTimers s).dt = countDown s.dt := rfl
@[simp] theorem tickTimers_st (s : State) : (tickTimers s).st = countDown s.st := rfl
@[simp] theorem tickTimers_key (s : State) : (tickTimers s).key = s.key := rfl
@[simp] theorem tickTimers_fb (s : State) : (tickTimers s).fb = s.fb := rfl
@[simp] theorem tickTimers_drawFlag (s : State) : (tickTimers s).drawFlag = s.drawFlag := rfl
@[simp] theorem tickTimers_mem (s : State) : (tickTimers s).mem = s.mem := rfl
@[simp] theorem tickTimers_rndCount (s : State) : (tickTimers s).rndCount = s.rndCount := rfl

/-! ## clearDrawFlag -/

@[simp] theorem clearDrawFlag_v (s : State) : (clearDrawFlag s).v = s.v := rfl
@[simp] theorem clearDrawFlag_i (s : State) : (clearDrawFlag s).i = s.i := rfl
@[simp] theorem clearDrawFlag_pc (s : State) : (clearDrawFlag s).pc = s.pc := rfl
@[simp] theorem clearDrawFlag_stack (s : State) : (clearDrawFlag s).stack = s.stack := rfl
@[simp] theorem clearDrawFlag_sp (s : State) : (clearDrawFlag s).sp = s.sp := rfl
@[simp] theorem clearDrawFlag_dt (s : State) : (clearDrawFlag s).dt = s.dt := rfl
@[simp] theorem clearDrawFlag_st (s : State) : (clearDrawFlag s).st = s.st := rfl
@[simp] theorem clearDrawFlag_key (s : State) : (clearDrawFlag s).key = s.key := rfl
@[simp] theorem clearDrawFlag_fb (s : State) : (clearDrawFlag s).fb = s.fb := rfl
@[simp] theorem clearDrawFlag_drawFlag (s : State) : (clearDrawFlag s).drawFlag = false := rfl
@[simp] theorem clearDrawFlag_mem (s : State) : (clearDrawFlag s).mem = s.mem := rfl
@[simp] theorem clearDrawFlag_rndCount (s : State) : (clearDrawFlag s).rndCount = s.rndCount := rfl

/-! ## setKey -/

@[simp] theorem setKey_v (k : Fin 16) (p : Bool) (s : State) : (setKey k p s).v = s.v := rfl
@[simp] theorem setKey_i (k : Fin 16) (p : Bool) (s : State) : (setKey k p s).i = s.i := rfl
@[simp] theorem setKey_pc (k : Fin 16) (p : Bool) (s : State) : (setKey k p s).pc = s.pc := rfl
@[simp] theorem setKey_stack (k : Fin 16) (p : Bool) (s : State) : (setKey k p s).stack = s.stack := rfl
@[simp] theorem setKey_sp (k : Fin 16) (p : Bool) (s : State) : (setKey k p s).sp = s.sp := rfl
@[simp] theorem setKey_dt (k : Fin 16) (p : Bool) (s : State) : (setKey k p s).dt = s.dt := rfl
@[simp] theorem setKey_st (k : Fin 16) (p : Bool) (s : State) : (setKey k p s).st = s.st := rfl
@[simp] theorem setKey_fb (k : Fin 16) (p : Bool) (s : State) : (setKey k p s).fb = s.fb := rfl
@[simp] theorem setKey_drawFlag (k : Fin 16) (p : Bool) (s : State) : (setKey k p s).drawFlag = s.drawFlag := rfl
@[simp] theorem setKey_mem (k : Fin 16) (p : Bool) (s : State) : (setKey k p s).mem = s.mem := rfl
@[simp] theorem setKey_rndCount (k : Fin 16) (p : Bool) (s : State) : (setKey k p s).rndCount = s.rndCount := rfl

/-! ## loadProgram -/

@[simp] theorem loadProgram_v (image : List Byte) (s : State) : (loadProgram image s).v = s.v := rfl
@[simp] theorem loadProgram_i (image : List Byte) (s : State) : (loadProgram image s).i = s.i := rfl
@[simp] theorem loadProgram_pc (image : List Byte) (s : State) : (loadProgram image s).pc = s.pc := rfl
@[simp] theorem loadProgram_stack (image : List Byte) (s : State) : (loadProgram image s).stack = s.stack := rfl
@[simp] theorem loadProgram_sp (image : List Byte) (s : State) : (loadProgram image s).sp = s.sp := rfl
@[simp] theorem loadProgram_dt (image : List Byte) (s : State) : (loadProgram image s).dt = s.dt := rfl
@[simp] theorem loadProgram_st (image : List Byte) (s : State) : (loadProgram image s).st = s.st := rfl
@[simp] theorem loadProgram_key (image : List Byte) (s : State) : (loadProgram image s).key = s.key := rfl
@[simp] theorem loadProgram_fb (image : List Byte) (s : State) : (loadProgram image s).fb = s.fb := rfl
@[simp] theorem loadProgram_drawFlag (image : List Byte) (s : State) : (loadProgram image s).drawFlag = s.drawFlag := rfl
@[simp] theorem loadProgram_mem (image : List Byte) (s : State) : (loadProgram image s).mem = s.mem.writeBytes Config.progBase image := rfl
@[simp] theorem loadProgram_rndCount (image : List Byte) (s : State) : (loadProgram image s).rndCount = s.rndCount := rfl

/-! ## resetMachine -/

@[simp] theorem resetMachine_v (s : State) : (resetMachine s).v = State.reset.v := rfl
@[simp] theorem resetMachine_i (s : State) : (resetMachine s).i = State.reset.i := rfl
@[simp] theorem resetMachine_pc (s : State) : (resetMachine s).pc = State.reset.pc := rfl
@[simp] theorem resetMachine_stack (s : State) : (resetMachine s).stack = State.reset.stack := rfl
@[simp] theorem resetMachine_sp (s : State) : (resetMachine s).sp = State.reset.sp := rfl
@[simp] theorem resetMachine_dt (s : State) : (resetMachine s).dt = State.reset.dt := rfl
@[simp] theorem resetMachine_st (s : State) : (resetMachine s).st = State.reset.st := rfl
@[simp] theorem resetMachine_key (s : State) : (resetMachine s).key = State.reset.key := rfl
@[simp] theorem resetMachine_fb (s : State) : (resetMachine s).fb = State.reset.fb := rfl
@[simp] theorem resetMachine_drawFlag (s : State) : (resetMachine s).drawFlag = State.reset.drawFlag := rfl
@[simp] theorem resetMachine_mem (s : State) : (resetMachine s).mem = State.reset.mem := rfl
@[simp] theorem resetMachine_rndCount (s : State) : (resetMachine s).rndCount = s.rndCount := rfl

/-! ## What the accessors read after an update -/

@[simp] theorem reg_setReg (s : State) (r q : Reg) (b : Byte) :
    (s.setReg r b).reg q = if q = r then b else s.reg q := by
  simp only [State.reg, State.setReg, Vector.getElem_set, Fin.ext_iff, eq_comm]

@[simp] theorem reg_mk (v : Vector Byte 16) (i pc : Word) (stack : Vector Word 16) (sp : Fin 17) (dt st : Byte)
    (key : Vector Bool 16) (fb : Framebuffer) (d : Bool) (m : Memory) (n : Nat) (r : Reg) :
    (State.mk v i pc stack sp dt st key fb d m n).reg r = v[r.val] := rfl

@[simp] theorem keyDown_mk (v : Vector Byte 16) (i pc : Word) (stack : Vector Word 16) (sp : Fin 17) (dt st : Byte)
    (key : Vector Bool 16) (fb : Framebuffer) (d : Bool) (m : Memory) (n : Nat) (k : Fin 16) :
    (State.mk v i pc stack sp dt st key fb d m n).keyDown k = key[k.val] := rfl

theorem reg_def (s : State) (r : Reg) : s.reg r = s.v[r.val] := rfl

theorem keyDown_def (s : State) (k : Fin 16) : s.keyDown k = s.key[k.val] := rfl


@[simp] theorem keyDown_setReg (s : State) (r : Reg) (b : Byte) (q : Fin 16) : (s.setReg r b).keyDown q = s.keyDown q := rfl
@[simp] theorem reg_advance (s : State) (q : Reg) : s.advance.reg q = s.reg q := rfl
@[simp] theorem keyDown_advance (s : State) (q : Fin 16) : s.advance.keyDown q = s.keyDown q := rfl
@[simp] theorem reg_skipIf (s : State) (c : Bool) (q : Reg) : (s.skipIf c).reg q = s.reg q := rfl
@[simp] theorem keyDown_skipIf (s : State) (c : Bool) (q : Fin 16) : (s.skipIf c).keyDown q = s.keyDown q := rfl
@[simp] theorem reg_jumpTo (s : State) (a : Word) (q : Reg) : (s.jumpTo a).reg q = s.reg q := rfl
@[simp] theorem keyDown_jumpTo (s : State) (a : Word) (q : Fin 16) : (s.jumpTo a).keyDown q = s.keyDown q := rfl
@[simp] theorem reg_writeAtI (s : State) (bs : List Byte) (q : Reg) : (s.writeAtI bs).reg q = s.reg q := rfl
@[simp] theorem keyDown_writeAtI (s : State) (bs : List Byte) (q : Fin 16) : (s.writeAtI bs).keyDown q = s.keyDown q := rfl
@[simp] theorem reg_setKeyCell (s : State) (k : Fin 16) (p : Bool) (q : Reg) : (s.setKeyCell k p).reg q = s.reg q := rfl
@[simp] theorem reg_rndDrawn (s : State) (q : Reg) : s.rndDrawn.reg q = s.reg q := rfl
@[simp] theorem keyDown_rndDrawn (s : State) (q : Fin 16) : s.rndDrawn.keyDown q = s.keyDown q := rfl
@[simp] theorem reg_tickTimers (s : State) (q : Reg) : (tickTimers s).reg q = s.reg q := rfl
@[simp] theorem keyDown_tickTimers (s : State) (q : Fin 16) : (tickTimers s).keyDown q = s.keyDown q := rfl
@[simp] theorem reg_clearDrawFlag (s : State) (q : Reg) : (clearDrawFlag s).reg q = s.reg q := rfl
@[simp] theorem keyDown_clearDrawFlag (s : State) (q : Fin 16) : (clearDrawFlag s).keyDown q = s.keyDown q := rfl
@[simp] theorem reg_setKey (k : Fin 16) (p : Bool) (s : State) (q : Reg) : (setKey k p s).reg q = s.reg q := rfl
@[simp] theorem reg_loadProgram (image : List Byte) (s : State) (q : Reg) : (loadProgram image s).reg q = s.reg q := rfl
@[simp] theorem keyDown_loadProgram (image : List Byte) (s : State) (q : Fin 16) : (loadProgram image s).keyDown q = s.keyDown q := rfl

@[simp] theorem keyDown_setKeyCell (s : State) (k q : Fin 16) (p : Bool) :
    (s.setKeyCell k p).keyDown q = if q = k then p else s.keyDown q := by
  simp only [State.keyDown, State.setKeyCell, Vector.getElem_set, Fin.ext_iff, eq_comm]

@[simp] theorem keyDown_setKey (k q : Fin 16) (p : Bool) (s : State) :
    (setKey k p s).keyDown q = if q = k then p else s.keyDown q := keyDown_setKeyCell s k q p

end Sys2Proof.Laws
end

