-- ==== Sys2Proof/Laws/Ops.lean ====
section
/-! SUPPORT. One lemma per shared operation: everything it can do. Proofs cite these instead of unfolding it. -/

namespace Sys2Proof.Laws

open Sys2Proof.Machine Sys2Proof.Safety

/-! ## Sizes and policies -/

theorem nregs_eq : Config.nregs = 16 := rfl
theorem nkeys_eq : Config.nkeys = 16 := rfl
theorem stackDepth_eq : Config.stackDepth = 16 := rfl

@[simp] theorem raise_eq (f : Fault) : raise f = .fault f := rfl
@[simp] theorem unknownPolicy_eq (s : State) : unknownPolicy s = .next s.advance := rfl
@[simp] theorem stackOverflowPolicy_eq (s : State) (w : Word) :
    stackOverflowPolicy s w = .fault (.stackOverflow s.pc w) := rfl
@[simp] theorem memRangePolicy_eq (s : State) (w : Word) :
    memRangePolicy s w = .fault (.memOutOfRange s.pc w s.i) := rfl
@[simp] theorem fontWritePolicy_eq (s : State) (w : Word) :
    fontWritePolicy s w = .fault (.fontWrite s.pc w s.i) := rfl

/-! ## Checks before an access through `I` -/

theorem dataAddr_zero (s : State) : dataAddr s 0 = s.i.toNat := rfl

/-- The range check passes exactly when the bytes lie inside memory. -/
theorem pastMemory_eq_false_iff (s : State) (n : Nat) : pastMemory s n = false ↔ Readable s n := by
  unfold pastMemory Readable dataAddr Config.memSize
  rw [Bool.and_eq_false_iff, decide_eq_false_iff_not, decide_eq_false_iff_not]
  omega

theorem pastMemory_eq_true_iff (s : State) (n : Nat) : pastMemory s n = true ↔ ¬ Readable s n := by
  rw [← pastMemory_eq_false_iff, Bool.not_eq_false]

/-- The font check passes exactly when no byte of the access lies in the font region. -/
theorem meetsFont_eq_false_iff (s : State) (n : Nat) : meetsFont s n = false ↔
    ∀ k < n, ¬ (fontBase ≤ s.i.toNat + k ∧ s.i.toNat + k < fontBase + fontSize) := by
  unfold meetsFont dataAddr
  constructor
  · intro h k hk hf
    have : fontSize = 80 := rfl
    simp only [Bool.and_eq_false_iff, decide_eq_false_iff_not] at h
    omega
  · intro h
    have hs : fontSize = 80 := rfl
    have hb : fontBase = 80 := rfl
    simp only [Bool.and_eq_false_iff, decide_eq_false_iff_not]
    by_contra hc
    push Not at hc
    obtain ⟨⟨hn, h1⟩, h2⟩ := hc
    by_cases h3 : fontBase ≤ s.i.toNat
    · exact h 0 hn ⟨by omega, by omega⟩
    · exact h (fontBase - s.i.toNat) (by omega) ⟨by omega, by omega⟩

/-- A guarded read goes on, or faults with the state as it was. -/
theorem withReadable_cases (s : State) (word : Word) (n : Nat) (go : Outcome) :
    (Readable s n ∧ withReadable s word n go = go) ∨
    (¬ Readable s n ∧ withReadable s word n go = .fault (.memOutOfRange s.pc word s.i)) := by
  unfold withReadable memRangePolicy raise
  split_ifs with h
  · exact .inr ⟨(pastMemory_eq_true_iff s n).mp h, rfl⟩
  · exact .inl ⟨(pastMemory_eq_false_iff s n).mp (Bool.not_eq_true _ ▸ h), rfl⟩

/-- A guarded write goes on, or faults for its range, or, in range, for the font. -/
theorem withWritable_cases (s : State) (word : Word) (n : Nat) (go : Outcome) :
    (Writable s n ∧ withWritable s word n go = go) ∨
    (¬ Readable s n ∧ withWritable s word n go = .fault (.memOutOfRange s.pc word s.i)) ∨
    (Readable s n ∧ ¬ Writable s n ∧ withWritable s word n go = .fault (.fontWrite s.pc word s.i)) := by
  unfold withWritable
  rcases withReadable_cases s word n (if meetsFont s n then fontWritePolicy s word else go) with
    ⟨hr, he⟩ | ⟨hr, he⟩
  · rw [he]
    by_cases hf : meetsFont s n = true
    · refine .inr (.inr ⟨hr, fun hw => ?_, by rw [if_pos hf]; rfl⟩)
      rw [(meetsFont_eq_false_iff s n).mpr hw.2] at hf
      exact Bool.false_ne_true hf
    · have hf' := Bool.not_eq_true _ ▸ hf
      exact .inl ⟨⟨hr, (meetsFont_eq_false_iff s n).mp hf'⟩, by rw [if_neg hf]⟩
  · exact .inr (.inl ⟨hr, he⟩)

/-! ## The call stack -/

/-- A push stacks `pc` in the first free slot, or the stack is full. -/
theorem pushPc_cases (s : State) :
    (s.sp.val = 16 ∧ s.pushPc = none) ∨
    (∃ t, s.pushPc = some t ∧ s.sp.val < 16 ∧ t.sp.val = s.sp.val + 1 ∧
      (∀ k : Fin 16, t.stack[k.val] = if k.val = s.sp.val then s.pc else s.stack[k.val]) ∧
      t = { s with stack := t.stack, sp := t.sp }) := by
  unfold State.pushPc
  split_ifs with h
  · refine .inr ⟨_, rfl, h, rfl, fun k => ?_, rfl⟩
    exact (Vector.getElem_set (hi := h) k.isLt).trans (if_congr eq_comm rfl rfl)
  · have := s.sp.isLt
    have : Config.stackDepth = 16 := rfl
    exact .inl ⟨by omega, rfl⟩

/-- A pop gives the last stacked slot, which keeps its value, or the stack is empty. -/
theorem pop_cases (s : State) :
    (s.sp.val = 0 ∧ s.pop = none) ∨
    (∃ (k : Fin 16) (q : Fin 17), s.sp.val = k.val + 1 ∧ q.val = k.val ∧
      s.pop = some (s.stack[k.val], { s with sp := q })) := by
  unfold State.pop
  have hl : s.sp.val < 17 := s.sp.isLt
  have hd : Config.stackDepth = 16 := rfl
  split_ifs with h
  · exact .inl ⟨h, rfl⟩
  · exact .inr ⟨⟨s.sp.val - 1, by omega⟩, ⟨s.sp.val - 1, by omega⟩, by simp only; omega, rfl, rfl⟩

/-! ## Loading registers from bytes -/

/-- The registers after bytes are loaded from register `k` upward. -/
theorem getElem_setRegsFrom (v : Vector Byte 16) (k : Nat) (bs : List Byte) (r : Reg) :
    (setRegsFrom v k bs)[r.val] = if k ≤ r.val ∧ r.val < k + bs.length then bs.getD (r.val - k) 0 else v[r.val] := by
  induction bs generalizing v k with
  | nil => simp only [setRegsFrom, List.length_nil]; rw [if_neg (by omega)]
  | cons b bs ih =>
    simp only [setRegsFrom, ih, List.length_cons]
    rcases Nat.lt_trichotomy r.val k with hk | hk | hk
    · rw [if_neg (by omega), if_neg (by omega), Vector.getElem_setIfInBounds_ne _ (by omega)]
    · rw [if_neg (by omega), if_pos (by omega)]
      subst hk
      simp
    · obtain ⟨j, hj⟩ : ∃ j, r.val = k + 1 + j := ⟨r.val - (k + 1), by omega⟩
      by_cases hb : j < bs.length
      · rw [if_pos (by omega), if_pos (by omega), show r.val - (k + 1) = j by omega,
          show r.val - k = j + 1 by omega]
        rfl
      · rw [if_neg (by omega), if_neg (by omega), Vector.getElem_setIfInBounds_ne _ (by omega)]

/-! ## Keys -/

theorem mem_allKeys (k : Fin 16) : k ∈ allKeys := by revert k; decide

/-- A register value names the key of its number, or no key when it is above 15. -/
theorem keyOf_cases (b : Byte) :
    (∃ k : Fin 16, b.toNat = k.val ∧ keyOf b = some k) ∨ (15 < b.toNat ∧ keyOf b = none) := by
  have hk : Config.nkeys = 16 := rfl
  unfold keyOf
  split_ifs with h
  · exact .inl ⟨⟨_, h⟩, rfl, rfl⟩
  · exact .inr ⟨by omega, rfl⟩

/-- The scan finds no key only when none is pressed. -/
theorem firstKey_eq_none_iff (s : State) : s.firstKey = none ↔ ∀ k, s.keyDown k = false := by
  unfold State.firstKey
  simp only [List.find?_eq_none, Bool.not_eq_true]
  exact ⟨fun h k => h k (mem_allKeys k), fun h k _ => h k⟩

/-- The scan finds the lowest pressed key. -/
theorem firstKey_eq_some_iff (s : State) (k : Fin 16) :
    s.firstKey = some k ↔ s.keyDown k = true ∧ ∀ j < k, s.keyDown j = false := by
  have hpair : allKeys.Pairwise (· < ·) := by decide
  unfold State.firstKey
  constructor
  · intro h
    obtain ⟨hk, as, bs, heq, has⟩ := List.find?_eq_some_iff_append.mp h
    refine ⟨hk, fun j hj => ?_⟩
    have hj' := mem_allKeys j
    rw [heq] at hj' hpair
    rcases List.mem_append.mp hj' with hja | hjb
    · simpa using has j hja
    · rcases List.mem_cons.mp hjb with rfl | hjb
      · exact absurd hj (lt_irrefl _)
      · have := (List.pairwise_cons.mp (List.pairwise_append.mp hpair).2.1).1 j hjb
        exact absurd hj (not_lt.mpr this.le)
  · rintro ⟨hk, hlow⟩
    obtain ⟨as, bs, heq⟩ := List.append_of_mem (mem_allKeys k)
    refine List.find?_eq_some_iff_append.mpr ⟨hk, as, bs, heq, fun a ha => ?_⟩
    rw [heq] at hpair
    have := (List.pairwise_append.mp hpair).2.2 a ha k (by simp)
    simp [hlow a this]

/-! ## The framebuffer -/

@[simp] theorem pixel_blank (x : Fin 64) (y : Fin 32) : Framebuffer.pixel Framebuffer.blank x y = false := by
  simp [Framebuffer.pixel, Framebuffer.blank]

/-- Toggling a cell flips it and leaves every other cell alone. -/
theorem pixel_toggle (fb : Framebuffer) (x px : Fin 64) (y py : Fin 32) :
    Framebuffer.pixel (Framebuffer.toggle fb x y) px py =
      if px = x ∧ py = y then !Framebuffer.pixel fb px py else Framebuffer.pixel fb px py := by
  unfold Framebuffer.pixel Framebuffer.toggle
  by_cases hy : py = y
  · subst hy
    by_cases hx : px = x
    · subst hx; simp
    · have : x.val ≠ px.val := fun h => hx (Fin.ext h.symm)
      simp [hx, this]
  · have : y.val ≠ py.val := fun h => hy (Fin.ext h.symm)
    simp [hy, this]

/-- A plotted pixel toggles its cell, and VF becomes 1 if the cell was set. -/
theorem plot_eq (c : Canvas) (x : Fin 64) (y : Fin 32) :
    (c.plot x y).fb = Framebuffer.toggle c.fb x y ∧ (c.plot x y).vf = if Framebuffer.pixel c.fb x y then 1 else c.vf :=
  ⟨rfl, rfl⟩

/-- The edge policy places every coordinate, modulo the screen's size. -/
@[simp] theorem drawEdge_eq (size : Nat) [NeZero size] (n : Nat) : drawEdge size n = some (Fin.ofNat size n) := rfl

/-- So every pixel of value 1 is plotted, wrapped. -/
theorem plotAt_eq (c : Canvas) (x0 y0 : Nat) : c.plotAt x0 y0 = c.plot (Fin.ofNat 64 x0) (Fin.ofNat 32 y0) := rfl

/-! ## The flag of FX1E -/

/-- FX1E writes no flag. -/
@[simp] theorem indexFlag_eq (s : State) (sum : Nat) : s.indexFlag sum = s := rfl

/-! ## Bytes and words -/

theorem toNat_wordOfBytes (hi lo : Byte) : (wordOfBytes hi lo).toNat = hi.toNat * 256 + lo.toNat := by
  have := hi.isLt
  have := lo.isLt
  simp only [wordOfBytes, BitVec.toNat_ofNat]
  omega

@[simp] theorem wordOfBytes_highByte_lowByte (w : Word) : wordOfBytes (highByte w) (lowByte w) = w := by
  have := w.isLt
  apply BitVec.eq_of_toNat_eq
  simp only [toNat_wordOfBytes, highByte, lowByte, BitVec.toNat_ofNat]
  omega

/-! ## Fetch -/

/-- The word at `pc`, or no word when it would leave memory. -/
theorem fetch_cases (s : State) :
    (s.pc.toNat ≤ 0xFFE ∧ fetch s = some (wordOfBytes (s.mem.read s.pc.toNat) (s.mem.read (s.pc.toNat + 1)))) ∨
    (0xFFE < s.pc.toNat ∧ fetch s = none) := by
  unfold fetch Config.memSize
  split_ifs with h
  · exact .inl ⟨by omega, rfl⟩
  · exact .inr ⟨by omega, rfl⟩

/-- A step whose fetch leaves memory faults. -/
theorem fetchThen_of_fetch_none (run : Instr → State → Outcome) {s : State} (hf : fetch s = none) :
    fetchThen run s = .fault (.fetchOutOfRange s.pc) := by
  simp only [fetchThen, hf, raise_eq]

/-- A fetched word that decodes to nothing only advances pc. -/
theorem fetchThen_of_unknown (run : Instr → State → Outcome) {s : State} {w : Word} {e : DecodeError}
    (hf : fetch s = some w) (hd : decodeWord w = .error e) : fetchThen run s = .next s.advance := by
  simp only [fetchThen, hf, hd, unknownPolicy_eq]

/-- A fetched word that decodes is executed. -/
theorem fetchThen_of_decode (run : Instr → State → Outcome) {s : State} {w : Word} {i : Instr} (hf : fetch s = some w)
    (hd : decodeWord w = .ok i) : fetchThen run s = run i s := by
  simp only [fetchThen, hf, hd]

/-- Everything a fetch, decode and execute can be: a fetch fault, an unknown word, or the decoded instruction. -/
theorem fetchThen_cases (run : Instr → State → Outcome) (s : State) :
    (0xFFE < s.pc.toNat ∧ fetch s = none ∧ fetchThen run s = .fault (.fetchOutOfRange s.pc)) ∨
    (∃ w e, s.pc.toNat ≤ 0xFFE ∧ fetch s = some w ∧ decodeWord w = .error e ∧ fetchThen run s = .next s.advance) ∨
    (∃ w i, s.pc.toNat ≤ 0xFFE ∧ fetch s = some w ∧ decodeWord w = .ok i ∧ fetchThen run s = run i s) := by
  rcases fetch_cases s with ⟨hp, hf⟩ | ⟨hp, hf⟩
  · cases hd : decodeWord (wordOfBytes (s.mem.read s.pc.toNat) (s.mem.read (s.pc.toNat + 1))) with
    | error e => exact .inr (.inl ⟨_, e, hp, hf, hd, fetchThen_of_unknown run hf hd⟩)
    | ok i => exact .inr (.inr ⟨_, i, hp, hf, hd, fetchThen_of_decode run hf hd⟩)
  · exact .inl ⟨hp, hf, fetchThen_of_fetch_none run hf⟩

/-- Everything a step can be. -/
theorem step_cases (s : State) :
    (0xFFE < s.pc.toNat ∧ fetch s = none ∧ step s = .fault (.fetchOutOfRange s.pc)) ∨
    (∃ w e, s.pc.toNat ≤ 0xFFE ∧ fetch s = some w ∧ decodeWord w = .error e ∧ step s = .next s.advance) ∨
    (∃ w i, s.pc.toNat ≤ 0xFFE ∧ fetch s = some w ∧ decodeWord w = .ok i ∧ step s = exec i s) :=
  fetchThen_cases exec s

/-! ## The step's input -/

/-- CXNN is the one instruction that the input reaches. -/
theorem execWith_of_not_rand (rnd : Byte) {i : Instr} (h : ∀ x nn, i ≠ .rand x nn) (s : State) :
    execWith rnd i s = exec i s := by
  cases i
  case rand x nn => exact absurd rfl (h x nn)
  all_goals rfl

@[simp] theorem execWith_rand (rnd : Byte) (x : Reg) (nn : Byte) (s : State) :
    execWith rnd (.rand x nn) s = .next (s.setReg x (rnd &&& nn)).advance := rfl

/-- Without a presented input CXNN reads the next free value and uses it up. -/
theorem exec_rand (x : Reg) (nn : Byte) (s : State) :
    exec (.rand x nn) s = .next (s.rndDrawn.setReg x (s.rndByte &&& nn)).advance := rfl

/-- Everything a step with its input can be: a step, or a CXNN with that input. -/
theorem stepWith_cases (rnd : Byte) (s : State) :
    stepWith rnd s = step s ∨
    (∃ w x nn, fetch s = some w ∧ decodeWord w = .ok (.rand x nn) ∧
      stepWith rnd s = .next (s.setReg x (rnd &&& nn)).advance) := by
  cases hf : fetch s with
  | none => exact .inl ((fetchThen_of_fetch_none _ hf).trans (fetchThen_of_fetch_none exec hf).symm)
  | some w =>
    cases hd : decodeWord w with
    | error e => exact .inl ((fetchThen_of_unknown _ hf hd).trans (fetchThen_of_unknown exec hf hd).symm)
    | ok i =>
      by_cases hr : ∃ x nn, i = .rand x nn
      · obtain ⟨x, nn, rfl⟩ := hr
        exact .inr ⟨w, x, nn, rfl, hd, fetchThen_of_decode _ hf hd⟩
      · push Not at hr
        refine .inl ((fetchThen_of_decode _ hf hd).trans ?_)
        rw [execWith_of_not_rand rnd hr]
        exact (fetchThen_of_decode exec hf hd).symm

end Sys2Proof.Laws
end

