-- ==== Sys2Proof/Laws/PerInstr.lean ====
section
/-! SUPPORT. Statements about instructions as syntax, one lemma per constructor.
EncodeMatches: the word of a well-formed instruction matches the row of the opcode map that bears its name (30_encoding.md
R57, R58). -/

namespace Sys2Proof.Laws

/-- The row's test, with the value and the word as numbers. -/
theorem matches_mk_iff (name : String) (mask value : Word) (fmt : Format) (w : Word) :
    OpcodeRow.matches ⟨name, mask, value, fmt⟩ w = true ↔ (w &&& mask).toNat = value.toNat := by
  rw [OpcodeRow.matches, beq_iff_eq, BitVec.toNat_eq]

theorem matches_encodeNNN {f : Nat} (hf : f < 16) (a : Addr12) (name : String) (fmt : Format) :
    OpcodeRow.matches ⟨name, 0xF000#16, BitVec.ofNat 16 (f * 4096), fmt⟩ (encodeNNN f a) = true := by
  have := a.isLt
  rw [matches_mk_iff, toNat_and_F000, toNat_encodeNNN hf, BitVec.toNat_ofNat]
  omega

theorem matches_encodeXNN {f : Nat} (hf : f < 16) (x : Reg) (nn : Byte) (name : String) (fmt : Format) :
    OpcodeRow.matches ⟨name, 0xF000#16, BitVec.ofNat 16 (f * 4096), fmt⟩ (encodeXNN f x nn) = true := by
  have := x.isLt
  have := nn.isLt
  rw [matches_mk_iff, toNat_and_F000, toNat_encodeXNN hf, BitVec.toNat_ofNat]
  omega

theorem matches_encodeX {f : Nat} (hf : f < 16) (x : Reg) (nn : Byte) (name : String) (fmt : Format) :
    OpcodeRow.matches ⟨name, 0xF0FF#16, BitVec.ofNat 16 (f * 4096 + nn.toNat), fmt⟩ (encodeXNN f x nn) = true := by
  have := x.isLt
  have := nn.isLt
  rw [matches_mk_iff, toNat_and_F0FF, toNat_encodeXNN hf, BitVec.toNat_ofNat]
  omega

theorem matches_encodeXY {f : Nat} (hf : f < 16) (x y : Reg) {n : Nat} (hn : n < 16) (name : String) (fmt : Format) :
    OpcodeRow.matches ⟨name, 0xF00F#16, BitVec.ofNat 16 (f * 4096 + n), fmt⟩ (encodeXYN f x y n) = true := by
  have := x.isLt
  have := y.isLt
  rw [matches_mk_iff, toNat_and_F00F, toNat_encodeXYN hf x y hn, BitVec.toNat_ofNat]
  omega

theorem matches_encodeXYN {f : Nat} (hf : f < 16) (x y : Reg) {n : Nat} (hn : n < 16) (name : String) (fmt : Format) :
    OpcodeRow.matches ⟨name, 0xF000#16, BitVec.ofNat 16 (f * 4096), fmt⟩ (encodeXYN f x y n) = true := by
  have := x.isLt
  have := y.isLt
  rw [matches_mk_iff, toNat_and_F000, toNat_encodeXYN hf x y hn, BitVec.toNat_ofNat]
  omega

namespace EncodeMatches

/-- The encoding of a well-formed instruction matches the row of its name. -/
def Statement (i : Instr) : Prop :=
  i.WellFormed → ∃ r ∈ opcodeMap, r.name = i.name ∧ r.matches (encode i) = true

theorem clear : Statement .clear := fun _ => ⟨⟨"Clear", 0xFFFF, 0x00E0, .fixed⟩, by decide, rfl, by decide⟩
theorem ret : Statement .ret := fun _ => ⟨⟨"Return", 0xFFFF, 0x00EE, .fixed⟩, by decide, rfl, by decide⟩
theorem jump (nnn : Addr12) : Statement (.jump nnn) :=
  fun _ => ⟨⟨"Jump", 0xF000, 0x1000, .nnn⟩, by decide, rfl, matches_encodeNNN (f := 1) (by decide) nnn _ _⟩
theorem call (nnn : Addr12) : Statement (.call nnn) :=
  fun _ => ⟨⟨"Call", 0xF000, 0x2000, .nnn⟩, by decide, rfl, matches_encodeNNN (f := 2) (by decide) nnn _ _⟩
theorem skipEqN (x : Reg) (nn : Byte) : Statement (.skipEqN x nn) :=
  fun _ => ⟨⟨"SkipEqN", 0xF000, 0x3000, .xnn⟩, by decide, rfl, matches_encodeXNN (f := 3) (by decide) x nn _ _⟩
theorem skipNeN (x : Reg) (nn : Byte) : Statement (.skipNeN x nn) :=
  fun _ => ⟨⟨"SkipNeN", 0xF000, 0x4000, .xnn⟩, by decide, rfl, matches_encodeXNN (f := 4) (by decide) x nn _ _⟩
theorem skipEqV (x y : Reg) : Statement (.skipEqV x y) :=
  fun _ => ⟨⟨"SkipEqV", 0xF00F, 0x5000, .xy⟩, by decide, rfl, matches_encodeXY (f := 5) (n := 0) (by decide) x y (by decide) _ _⟩
theorem loadN (x : Reg) (nn : Byte) : Statement (.loadN x nn) :=
  fun _ => ⟨⟨"LoadN", 0xF000, 0x6000, .xnn⟩, by decide, rfl, matches_encodeXNN (f := 6) (by decide) x nn _ _⟩
theorem addN (x : Reg) (nn : Byte) : Statement (.addN x nn) :=
  fun _ => ⟨⟨"AddN", 0xF000, 0x7000, .xnn⟩, by decide, rfl, matches_encodeXNN (f := 7) (by decide) x nn _ _⟩
theorem move (x y : Reg) : Statement (.move x y) :=
  fun _ => ⟨⟨"Move", 0xF00F, 0x8000, .xy⟩, by decide, rfl, matches_encodeXY (f := 8) (n := 0) (by decide) x y (by decide) _ _⟩
theorem or (x y : Reg) : Statement (.or x y) :=
  fun _ => ⟨⟨"Or", 0xF00F, 0x8001, .xy⟩, by decide, rfl, matches_encodeXY (f := 8) (n := 1) (by decide) x y (by decide) _ _⟩
theorem and (x y : Reg) : Statement (.and x y) :=
  fun _ => ⟨⟨"And", 0xF00F, 0x8002, .xy⟩, by decide, rfl, matches_encodeXY (f := 8) (n := 2) (by decide) x y (by decide) _ _⟩
theorem xor (x y : Reg) : Statement (.xor x y) :=
  fun _ => ⟨⟨"Xor", 0xF00F, 0x8003, .xy⟩, by decide, rfl, matches_encodeXY (f := 8) (n := 3) (by decide) x y (by decide) _ _⟩
theorem addC (x y : Reg) : Statement (.addC x y) :=
  fun _ => ⟨⟨"AddC", 0xF00F, 0x8004, .xy⟩, by decide, rfl, matches_encodeXY (f := 8) (n := 4) (by decide) x y (by decide) _ _⟩
theorem subB (x y : Reg) : Statement (.subB x y) :=
  fun _ => ⟨⟨"SubB", 0xF00F, 0x8005, .xy⟩, by decide, rfl, matches_encodeXY (f := 8) (n := 5) (by decide) x y (by decide) _ _⟩
theorem shr (x y : Reg) : Statement (.shr x y) :=
  fun _ => ⟨⟨"Shr", 0xF00F, 0x8006, .xy⟩, by decide, rfl, matches_encodeXY (f := 8) (n := 6) (by decide) x y (by decide) _ _⟩
theorem subBRev (x y : Reg) : Statement (.subBRev x y) :=
  fun _ => ⟨⟨"SubBRev", 0xF00F, 0x8007, .xy⟩, by decide, rfl, matches_encodeXY (f := 8) (n := 7) (by decide) x y (by decide) _ _⟩
theorem shl (x y : Reg) : Statement (.shl x y) :=
  fun _ => ⟨⟨"Shl", 0xF00F, 0x800E, .xy⟩, by decide, rfl, matches_encodeXY (f := 8) (n := 14) (by decide) x y (by decide) _ _⟩
theorem skipNeV (x y : Reg) : Statement (.skipNeV x y) :=
  fun _ => ⟨⟨"SkipNeV", 0xF00F, 0x9000, .xy⟩, by decide, rfl, matches_encodeXY (f := 9) (n := 0) (by decide) x y (by decide) _ _⟩
theorem loadI (nnn : Addr12) : Statement (.loadI nnn) :=
  fun _ => ⟨⟨"LoadI", 0xF000, 0xA000, .nnn⟩, by decide, rfl, matches_encodeNNN (f := 10) (by decide) nnn _ _⟩
theorem jumpOffset (nnn : Addr12) : Statement (.jumpOffset nnn) :=
  fun _ => ⟨⟨"JumpOffset", 0xF000, 0xB000, .nnn⟩, by decide, rfl, matches_encodeNNN (f := 11) (by decide) nnn _ _⟩
theorem rand (x : Reg) (nn : Byte) : Statement (.rand x nn) :=
  fun _ => ⟨⟨"Rand", 0xF000, 0xC000, .xnn⟩, by decide, rfl, matches_encodeXNN (f := 12) (by decide) x nn _ _⟩
theorem draw (x y : Reg) (n : Nat) : Statement (.draw x y n) :=
  fun h => ⟨⟨"Draw", 0xF000, 0xD000, .xyn⟩, by decide, rfl, matches_encodeXYN (f := 13) (by decide) x y (by simpa [Instr.WellFormed, Instr.wellFormed] using h) _ _⟩
theorem skipKeyDown (x : Reg) : Statement (.skipKeyDown x) :=
  fun _ => ⟨⟨"SkipKeyDown", 0xF0FF, 0xE09E, .x⟩, by decide, rfl, matches_encodeX (f := 14) (by decide) x 0x9e _ _⟩
theorem skipKeyUp (x : Reg) : Statement (.skipKeyUp x) :=
  fun _ => ⟨⟨"SkipKeyUp", 0xF0FF, 0xE0A1, .x⟩, by decide, rfl, matches_encodeX (f := 14) (by decide) x 0xa1 _ _⟩
theorem readDelay (x : Reg) : Statement (.readDelay x) :=
  fun _ => ⟨⟨"ReadDelay", 0xF0FF, 0xF007, .x⟩, by decide, rfl, matches_encodeX (f := 15) (by decide) x 0x7 _ _⟩
theorem waitKey (x : Reg) : Statement (.waitKey x) :=
  fun _ => ⟨⟨"WaitKey", 0xF0FF, 0xF00A, .x⟩, by decide, rfl, matches_encodeX (f := 15) (by decide) x 0xa _ _⟩
theorem writeDelay (x : Reg) : Statement (.writeDelay x) :=
  fun _ => ⟨⟨"WriteDelay", 0xF0FF, 0xF015, .x⟩, by decide, rfl, matches_encodeX (f := 15) (by decide) x 0x15 _ _⟩
theorem writeSound (x : Reg) : Statement (.writeSound x) :=
  fun _ => ⟨⟨"WriteSound", 0xF0FF, 0xF018, .x⟩, by decide, rfl, matches_encodeX (f := 15) (by decide) x 0x18 _ _⟩
theorem addIndex (x : Reg) : Statement (.addIndex x) :=
  fun _ => ⟨⟨"AddIndex", 0xF0FF, 0xF01E, .x⟩, by decide, rfl, matches_encodeX (f := 15) (by decide) x 0x1e _ _⟩
theorem loadFont (x : Reg) : Statement (.loadFont x) :=
  fun _ => ⟨⟨"LoadFont", 0xF0FF, 0xF029, .x⟩, by decide, rfl, matches_encodeX (f := 15) (by decide) x 0x29 _ _⟩
theorem storeBCD (x : Reg) : Statement (.storeBCD x) :=
  fun _ => ⟨⟨"StoreBCD", 0xF0FF, 0xF033, .x⟩, by decide, rfl, matches_encodeX (f := 15) (by decide) x 0x33 _ _⟩
theorem storeRegs (x : Reg) : Statement (.storeRegs x) :=
  fun _ => ⟨⟨"StoreRegs", 0xF0FF, 0xF055, .x⟩, by decide, rfl, matches_encodeX (f := 15) (by decide) x 0x55 _ _⟩
theorem loadRegs (x : Reg) : Statement (.loadRegs x) :=
  fun _ => ⟨⟨"LoadRegs", 0xF0FF, 0xF065, .x⟩, by decide, rfl, matches_encodeX (f := 15) (by decide) x 0x65 _ _⟩

end EncodeMatches

end Sys2Proof.Laws
end

