-- ==== Sys2Proof/Tests/Slice0.lean ====
section
/-! SUPPORT. Tests. Expected results come from spec/95_test_vectors.md (the vector is named) or from the encodings of
30_encoding.md; then one witness for the hypotheses of each statement that has any, at the edges of their ranges. -/

namespace Sys2Proof.Tests

open Sys2Proof.Machine Sys2Proof.Safety

/-! ## Helpers -/

/-- The reset state with the listed registers set, `I`, and bytes at `I`. -/
def start (regs : List (Reg × Byte)) (i : Word := 0) (bytes : List Byte := []) : State :=
  regs.foldl (fun s r => s.setReg r.1 r.2) ({ State.reset with i := i }.writeAtI bytes)

/-- One thing seen in the state after the step that runs the word `w` from `s`. -/
def after {α : Type} (s : State) (w : Nat) (see : State → α) : Option α :=
  match step (s.withFetchWord 16 w) with
  | .next t => some (see t)
  | _ => none

/-- The fault of the step that runs the word `w` from `s`. -/
def faultOf (s : State) (w : Nat) : Option Fault :=
  match step (s.withFetchWord 16 w) with
  | .fault f => some f
  | _ => none

/-- The lit cells (x, y) of a state, in the listed ones. -/
def lit (s : State) (cells : List (Fin 64 × Fin 32)) : List Bool := cells.map fun c => Framebuffer.pixel s.fb c.1 c.2

/-- The reset state with the listed keys pressed. -/
def pressing (ks : List (Fin 16)) (s : State) : State := ks.foldl (fun s k => s.setKeyCell k true) s

/-- The number of calls on the stack set to `n`, each stacked at 0x456. -/
def nested (n : Fin 17) : State := { State.reset with sp := n, stack := Vector.replicate 16 0x456 }

/-! ## WellFormed: the ill-formed term of its one check -/

theorem test_wellFormed_refuses_sixteen_rows : ¬ (Instr.draw 0 0 16).WellFormed := by decide
theorem test_wellFormed_takes_fifteen_rows : (Instr.draw 0 0 15).WellFormed := by decide

/-! ## Decoding: a word written from the spec's encoding, for every constructor (R58; vectors 2.1) -/

theorem test_decode_clear : decode [0x00, 0xE0] = .ok (.clear, []) := by decide
theorem test_decode_ret : decode [0x00, 0xEE] = .ok (.ret, []) := by decide
theorem test_decode_jump : decode [0x1A, 0xBC] = .ok (.jump 0xABC, []) := by decide
theorem test_decode_call : decode [0x22, 0x0A] = .ok (.call 0x20A, []) := by decide
theorem test_decode_skipEqN : decode [0x31, 0x42] = .ok (.skipEqN 1 0x42, []) := by decide
theorem test_decode_skipNeN : decode [0x42, 0x11] = .ok (.skipNeN 2 0x11, []) := by decide
theorem test_decode_skipEqV : decode [0x51, 0x20] = .ok (.skipEqV 1 2, []) := by decide
theorem test_decode_loadN : decode [0x63, 0xAB] = .ok (.loadN 3 0xAB, []) := by decide
theorem test_decode_addN : decode [0x71, 0x03] = .ok (.addN 1 0x03, []) := by decide
theorem test_decode_move : decode [0x81, 0x20] = .ok (.move 1 2, []) := by decide
theorem test_decode_or : decode [0x81, 0x21] = .ok (.or 1 2, []) := by decide
theorem test_decode_and : decode [0x81, 0x22] = .ok (.and 1 2, []) := by decide
theorem test_decode_xor : decode [0x81, 0x23] = .ok (.xor 1 2, []) := by decide
theorem test_decode_addC : decode [0x81, 0x24] = .ok (.addC 1 2, []) := by decide
theorem test_decode_subB : decode [0x81, 0x25] = .ok (.subB 1 2, []) := by decide
theorem test_decode_shr : decode [0x81, 0x26] = .ok (.shr 1 2, []) := by decide
theorem test_decode_subBRev : decode [0x81, 0x27] = .ok (.subBRev 1 2, []) := by decide
theorem test_decode_shl : decode [0x81, 0x2E] = .ok (.shl 1 2, []) := by decide
theorem test_decode_skipNeV : decode [0x9A, 0xB0] = .ok (.skipNeV 0xA 0xB, []) := by decide
theorem test_decode_loadI : decode [0xA2, 0xF0] = .ok (.loadI 0x2F0, []) := by decide
theorem test_decode_jumpOffset : decode [0xB3, 0x00] = .ok (.jumpOffset 0x300, []) := by decide
theorem test_decode_rand : decode [0xC1, 0x0F] = .ok (.rand 1 0x0F, []) := by decide
theorem test_decode_draw : decode [0xD0, 0x15] = .ok (.draw 0 1 5, []) := by decide
theorem test_decode_skipKeyDown : decode [0xE1, 0x9E] = .ok (.skipKeyDown 1, []) := by decide
theorem test_decode_skipKeyUp : decode [0xE1, 0xA1] = .ok (.skipKeyUp 1, []) := by decide
theorem test_decode_readDelay : decode [0xF4, 0x07] = .ok (.readDelay 4, []) := by decide
theorem test_decode_waitKey : decode [0xF0, 0x0A] = .ok (.waitKey 0, []) := by decide
theorem test_decode_writeDelay : decode [0xF4, 0x15] = .ok (.writeDelay 4, []) := by decide
theorem test_decode_writeSound : decode [0xF4, 0x18] = .ok (.writeSound 4, []) := by decide
theorem test_decode_addIndex : decode [0xF2, 0x1E] = .ok (.addIndex 2, []) := by decide
theorem test_decode_loadFont : decode [0xF0, 0x29] = .ok (.loadFont 0, []) := by decide
theorem test_decode_storeBCD : decode [0xF0, 0x33] = .ok (.storeBCD 0, []) := by decide
theorem test_decode_storeRegs : decode [0xF2, 0x55] = .ok (.storeRegs 2, []) := by decide
theorem test_decode_loadRegs : decode [0xFA, 0x65] = .ok (.loadRegs 0xA, []) := by decide

/-- The unknown words of vectors 2.1. -/
theorem test_decode_unknown :
    ([0x0000#16, 0x00E1, 0x01E0, 0x0123, 0x5121, 0x9ABF, 0x8128, 0x812F, 0xE19F, 0xE1FE, 0xF175, 0xF000, 0xFFFF].map
      fun w => (decodeWord w).toOption) = List.replicate 13 none := by decide

/-- An unknown word is rejected by name. -/
theorem test_decode_rejects_by_name : decodeWord 0xFFFF = .error (.unknownWord 0xFFFF) := by decide

theorem test_decode_truncated : decode [0x12] = .error .truncated := by decide

/-- No two rows of the opcode map share a word (R57). -/
theorem test_opcodeMap_disjoint :
    opcodeMap.Pairwise (fun r q => r.value &&& (r.mask &&& q.mask) ≠ q.value &&& (r.mask &&& q.mask)) := by decide

/-- The image of P2's first lines and of a `.byte` item (R65; P2, P3). -/
theorem test_assemble :
    assemble [.instr (.loadN 0 0xF3), .instr (.loadI 0x300), .instr (.call 0x20A), .bytes [0xC3, 0x81]] =
      [0x60, 0xF3, 0xA3, 0x00, 0x22, 0x0A, 0xC3, 0x81] := by decide

/-! ## Display (vectors S5, V2, V4, V6, V9, V11) -/

/-- V2 -/
theorem test_clear_sets_the_draw_flag :
    after (start []) 0x00E0 (fun t => (t.drawFlag, lit t [(5, 4)], t.pc)) = some (true, [false], 0x202) := by decide

/-- S5 -/
theorem test_draw_example :
    after (start [(0, 3), (1, 4)] 0x300 [0x3C]) 0xD011
      (fun t => (lit t [(3, 4), (4, 4), (5, 4), (6, 4), (7, 4), (8, 4), (9, 4), (10, 4)], t.reg 15, t.drawFlag)) =
    some ([false, false, true, true, true, true, false, false], 0, true) := by decide

/-- V4: rows wrap. -/
theorem test_draw_wraps_rows :
    after (start [(0, 0), (1, 31)] 0x300 [0x80, 0x80]) 0xD012 (fun t => (lit t [(0, 31), (0, 0), (0, 30)], t.reg 15)) =
    some ([true, true, false], 0) := by decide

/-- V9: the faulting Draw. -/
theorem test_draw_range_fault :
    faultOf (start [] 0xFFE) 0xD003 = some (.memOutOfRange 0x200 0xD003 0xFFE) := by decide

/-! ## Control transfer (vectors V12, V16 to V19, V21) -/

/-- V12 -/
theorem test_jump : after (start []) 0x1ABC (fun t => t.pc) = some 0xABC := by decide

/-- V16: the 16th call is allowed. -/
theorem test_call_sixteenth :
    after (nested 15) 0x2345 (fun t => (t.stack[15], t.sp, t.pc)) = some (0x200, 16, 0x345) := by decide

/-- V17 -/
theorem test_call_overflow : faultOf (nested 16) 0x2345 = some (.stackOverflow 0x200 0x2345) := by decide

/-- V18 -/
theorem test_ret : after (nested 2) 0x00EE (fun t => (t.sp, t.pc, t.stack[1])) = some (1, 0x458, 0x456) := by decide

/-- V19 -/
theorem test_ret_underflow : faultOf (nested 0) 0x00EE = some (.stackUnderflow 0x200 0x00EE) := by decide

/-- V21: no mask to 12 bits. -/
theorem test_jumpOffset : after (start [(0, 0xFF)]) 0xBFFF (fun t => t.pc) = some 0x10FE := by decide

/-! ## Skips (vectors V23, V24, V25, V26, V27, V28, V30, V31) -/

/-- V23, V24 -/
theorem test_skipEqN : (after (start [(1, 0x42)]) 0x3142 (fun t => t.pc), after (start [(1, 0x42)]) 0x3143 (fun t => t.pc)) =
    (some 0x204, some 0x202) := by decide

/-- V25, V26 -/
theorem test_skipNeN : (after (start [(1, 0x42)]) 0x4142 (fun t => t.pc), after (start [(1, 0x42)]) 0x4143 (fun t => t.pc)) =
    (some 0x202, some 0x204) := by decide

/-- V27, V28 -/
theorem test_skipEqV : (after (start [(1, 7), (2, 7)]) 0x5120 (fun t => t.pc), after (start [(1, 7), (2, 8)]) 0x5120 (fun t => t.pc)) =
    (some 0x204, some 0x202) := by decide

/-- V30, V31 -/
theorem test_skipNeV : (after (start [(1, 7), (2, 8)]) 0x9120 (fun t => t.pc), after (start [(1, 7), (2, 7)]) 0x9120 (fun t => t.pc)) =
    (some 0x204, some 0x202) := by decide

/-! ## Load and arithmetic (vectors S1 to S3, V34 to V62) -/

/-- S1 -/
theorem test_loadN : after (start []) 0x63AB (fun t => (t.reg 3, t.pc)) = some (0xAB, 0x202) := by decide

/-- V34: no flag. -/
theorem test_addN_wraps : after (start [(1, 0xFE)]) 0x7103 (fun t => (t.reg 1, t.reg 15)) = some (0x01, 0) := by decide

/-- V36 -/
theorem test_move : after (start [(2, 0x5A)]) 0x8120 (fun t => t.reg 1) = some 0x5A := by decide

/-- V37 -/
theorem test_or_keeps_VF :
    after (start [(1, 0xF0), (2, 0x0F), (15, 7)]) 0x8121 (fun t => (t.reg 1, t.reg 15)) = some (0xFF, 7) := by decide

/-- V38 -/
theorem test_and : after (start [(1, 0xF3), (2, 0x3C)]) 0x8122 (fun t => t.reg 1) = some 0x30 := by decide

/-- V39 -/
theorem test_xor : after (start [(1, 0xF3), (2, 0x3C)]) 0x8123 (fun t => t.reg 1) = some 0xCF := by decide

/-- S2 -/
theorem test_addC_carry :
    after (start [(1, 180), (2, 155)]) 0x8124 (fun t => (t.reg 1, t.reg 15, t.pc)) = some (79, 1, 0x202) := by decide

/-- V44: the result replaces the carry. -/
theorem test_addC_to_VF : after (start [(15, 200), (1, 100)]) 0x8F14 (fun t => t.reg 15) = some 44 := by decide

/-- S3 -/
theorem test_subB_borrow : after (start [(1, 0), (2, 2)]) 0x8125 (fun t => (t.reg 1, t.reg 15)) = some (254, 0) := by decide

/-- V49: the subtrahend is the new flag. -/
theorem test_subB_from_VF :
    after (start [(0, 10), (15, 3)]) 0x80F5 (fun t => (t.reg 0, t.reg 15)) = some (9, 1) := by decide

/-- V52: Y is ignored. -/
theorem test_shr :
    after (start [(1, 0x04), (2, 0xFF)]) 0x8126 (fun t => (t.reg 1, t.reg 15, t.reg 2)) = some (0x02, 0, 0xFF) := by decide

/-- V54 -/
theorem test_shr_VF : after (start [(15, 0xFF)]) 0x8F06 (fun t => t.reg 15) = some 0 := by decide

/-- V56 -/
theorem test_subBRev_borrow :
    after (start [(1, 10), (2, 2)]) 0x8127 (fun t => (t.reg 1, t.reg 15)) = some (248, 0) := by decide

/-- V58 -/
theorem test_subBRev_from_VF :
    after (start [(0, 10), (15, 3)]) 0x80F7 (fun t => (t.reg 0, t.reg 15)) = some (246, 0) := by decide

/-- V59 -/
theorem test_shl : after (start [(1, 0x81)]) 0x812E (fun t => (t.reg 1, t.reg 15)) = some (0x02, 1) := by decide

/-- V61 -/
theorem test_shl_VF : after (start [(15, 0x80)]) 0x8F0E (fun t => t.reg 15) = some 2 := by decide

/-! ## Index register and memory (vectors V63 to V86) -/

/-- V63 -/
theorem test_loadI : after (start [] 0xFFFF) 0xA2F0 (fun t => t.i) = some 0x02F0 := by decide

/-- V65: no flag, no mask. -/
theorem test_addIndex : after (start [(2, 1)] 0x0FFF) 0xF21E (fun t => (t.i, t.reg 15)) = some (0x1000, 0) := by decide

/-- V66 -/
theorem test_addIndex_wraps : after (start [(2, 2)] 0xFFFF) 0xF21E (fun t => t.i) = some 1 := by decide

/-- V68 (FONT_BASE: log 3) -/
theorem test_loadFont : after (start [(0, 0x0F)]) 0xF029 (fun t => t.i) = some 0x09B := by decide

/-- V70: no mask. -/
theorem test_loadFont_whole : after (start [(0, 0xFF)]) 0xF029 (fun t => t.i) = some 0x54B := by decide

/-- S6 -/
theorem test_storeBCD :
    after (start [(0, 243)] 0x300) 0xF033 (fun t => (t.mem.readBytes 0x300 3, t.i)) = some ([2, 4, 3], 0x300) := by decide

/-- V75 -/
theorem test_storeBCD_font : faultOf (start [] 0x04E) 0xF033 = some (.fontWrite 0x200 0xF033 0x04E) := by decide

/-- V78 -/
theorem test_storeRegs :
    after (start [(0, 0x11), (1, 0x22), (2, 0x33), (3, 0x44)] 0x300) 0xF255 (fun t => t.mem.readBytes 0x300 4) =
    some [0x11, 0x22, 0x33, 0] := by decide

/-- V80 -/
theorem test_storeRegs_range : faultOf (start [] 0xFF1) 0xFF55 = some (.memOutOfRange 0x200 0xFF55 0xFF1) := by decide

/-- V83 (the bytes: log 2) -/
theorem test_loadRegs_font :
    after (start [] 0x050) 0xF465 (fun t => ([t.reg 0, t.reg 1, t.reg 2, t.reg 3, t.reg 4], t.i)) =
    some ([0xF0, 0x90, 0x90, 0x90, 0xF0], 0x050) := by decide

/-- V85 -/
theorem test_loadRegs_range : faultOf (start [] 0xFFF) 0xF165 = some (.memOutOfRange 0x200 0xF165 0xFFF) := by decide

/-! ## Random, keypad, timers (vectors V88 to V102) -/

/-- V88, for every random byte -/
theorem test_rand_masks : after (start []) 0xC100 (fun t => (t.reg 1, t.rndCount)) = some (0, 1) := by
  have h : (start []).rndByte &&& 0 = 0 := BitVec.and_zero
  exact congrArg (fun b => some (b, 1)) h

/-- V87: the input presented by the host. -/
theorem test_rand_input :
    (match stepWith 0xB7 ((start []).withFetchWord 16 0xC10F) with | .next t => some (t.reg 1, t.pc) | _ => none) =
    some (0x07, 0x202) := by decide

/-- V90, V91 -/
theorem test_skipKeyDown :
    (after (pressing [10] (start [(3, 10)])) 0xE39E (fun t => t.pc), after (start [(3, 10)]) 0xE39E (fun t => t.pc)) =
    (some 0x204, some 0x202) := by decide

/-- V94 -/
theorem test_skipKeyDown_fault :
    faultOf (start [(3, 16)]) 0xE39E = some (.keyIndexOutOfRange 0x200 0xE39E 16) := by decide

/-- V92, V93 -/
theorem test_skipKeyUp :
    (after (pressing [10] (start [(3, 10)])) 0xE3A1 (fun t => t.pc), after (start [(3, 10)]) 0xE3A1 (fun t => t.pc)) =
    (some 0x202, some 0x204) := by decide

/-- V95: not masked to 0xA. -/
theorem test_skipKeyUp_fault :
    faultOf (start [(3, 0x1A)]) 0xE3A1 = some (.keyIndexOutOfRange 0x200 0xE3A1 0x1A) := by decide

/-- V96 -/
theorem test_readDelay : after { start [] with dt := 0x2C } 0xF407 (fun t => (t.reg 4, t.dt)) = some (0x2C, 0x2C) := by decide

/-- V97 -/
theorem test_writeDelay : after (start [(4, 0x3C)]) 0xF415 (fun t => (t.dt, t.st)) = some (0x3C, 0) := by decide

/-- V98 -/
theorem test_writeSound : after (start [(4, 5)]) 0xF418 (fun t => (t.st, t.dt)) = some (5, 0) := by decide

/-- V99: with no key the whole state is unchanged. -/
theorem test_waitKey_waits : after (start []) 0xF50A (fun t => t) = some ((start []).withFetchWord 16 0xF50A) := by decide

/-- V100 -/
theorem test_waitKey_lowest :
    after (pressing [3, 9] (start [])) 0xF50A (fun t => (t.reg 5, t.keyDown 3, t.keyDown 9, t.pc)) =
    some (3, false, true, 0x202) := by decide

/-! ## Unknown words, fetch, the operations (vectors V103 to V117) -/

/-- V108 -/
theorem test_unknown_word :
    (stepReport ((start [(1, 7), (2, 7)]).withFetchWord 16 0x5121)).map (fun r => (r.1, statusCode r.1, r.2.pc)) =
    some (.unknownOpcode 0x200 0x5121, 1, 0x202) := by decide

/-- V112 -/
theorem test_fetch_fault : step { State.reset with pc := 0xFFF } = .fault (.fetchOutOfRange 0xFFF) := rfl

/-- The code numbers of the six faults (R122). -/
theorem test_fault_codes :
    [Fault.stackOverflow 0 0, .stackUnderflow 0 0, .fetchOutOfRange 0, .memOutOfRange 0 0 0, .fontWrite 0 0 0,
      .keyIndexOutOfRange 0 0 0].map faultCode = [2, 3, 4, 5, 6, 7] := by decide

/-- V104 -/
theorem test_tick_tone :
    perform .tickTimers { machine := { State.reset with dt := 1, st := 1 }, phase := .running } =
    .ok (.tone true, { machine := State.reset, phase := .running }) := by decide

/-- V117 -/
theorem test_set_key :
    (performAll [.setKey 7 true, .setKey 7 false] Session.start).map (fun r => r.2) = .ok Session.start := by decide

/-- The last bytes of the font (R23, V114) and the bytes on its two sides. -/
theorem test_reset_font :
    [State.reset.mem.read 0x04F, State.reset.mem.read 0x050, State.reset.mem.read 0x09F, State.reset.mem.read 0x0A0] =
    [0, 0xF0, 0x80, 0] := by decide

/-! ## Witnesses: states and operands that meet the hypotheses of the statements, at their edges -/

/-- DecodeOfEncodeIsTheInstruction. -/
theorem witness_wellFormed : (Instr.draw 15 15 15).WellFormed ∧ (Instr.draw 0 0 0).WellFormed ∧ Instr.ret.WellFormed := by
  decide

/-- EncodeOfDecodeIsTheWord. -/
theorem witness_decodes : decodeWord 0xDFFF = .ok (.draw 15 15 15) := by decide

/-- FetchIsBigEndian, StepRunsTheDecodedInstruction: the last word of memory (V113), and an odd pc (vectors 2.1). -/
theorem witness_step :
    let s : State := { State.reset with pc := 0xFFE, mem := [(0xFFE, 0x60), (0xFFF, 0x07)] }
    let o : State := { State.reset with pc := 0x201, mem := [(0x200, 0x12), (0x201, 0x61), (0x202, 0x05)] }
    s.pc.toNat ≤ 0xFFE ∧
    decode [s.mem.read s.pc.toNat, s.mem.read (s.pc.toNat + 1)] = .ok (.loadN 0 7, []) ∧
    (∃ t, exec (.loadN 0 7) s = .next t) ∧ o.pc.toNat ≤ 0xFFE ∧
    decode [o.mem.read o.pc.toNat, o.mem.read (o.pc.toNat + 1)] = .ok (.loadN 1 5, []) :=
  ⟨by decide, by decide, ⟨_, rfl⟩, by decide, by decide⟩

/-- FetchBeyondMemoryFaults. -/
theorem witness_fetch_beyond : 0xFFE < ({ State.reset with pc := 0xFFF } : State).pc.toNat ∧
    0xFFE < ({ State.reset with pc := 0xFFFF } : State).pc.toNat := by decide

/-- UnknownWordOnlyAdvancesPc (V110). -/
theorem witness_unknown :
    let s : State := { State.reset with pc := 0xFFE }
    s.pc.toNat ≤ 0xFFE ∧
    decode [s.mem.read s.pc.toNat, s.mem.read (s.pc.toNat + 1)] = .error (.unknownWord 0x0000) := by decide

/-- FaultLastsUntilReset. -/
theorem witness_fault_lasts :
    let c : Session := { machine := { State.reset with pc := 0x1000 }, phase := .running }
    let ops : List Operation := [.tickTimers, .setKey 15 true, .step 0, .clearDrawFlag, .snapshot]
    step c.machine = .fault (.fetchOutOfRange 0x1000) ∧ (∀ op ∈ ops, whileRunning op = true) ∧
    ∃ outs d, performAll ops c = .ok (outs, d) :=
  ⟨rfl, by decide, _, _, rfl⟩

/-- LoadProgramCopiesTheImage: the longest image, one byte more, and a phase that is not fresh. -/
theorem witness_load :
    (List.replicate 3583 (0x12 : Byte)).length ≤ 3583 ∧ State.reset.mem.wf ∧
    3583 < (List.replicate 3584 (0x12 : Byte)).length ∧ Phase.running ≠ .fresh ∧ Phase.loaded ≠ .fresh := by
  simp only [List.length_replicate]; decide

/-- BootFetchesTheImage. -/
theorem witness_boot : (List.replicate 3581 (0 : Byte)).length + 2 ≤ 3583 := by simp only [List.length_replicate]; decide

/-- PlacedWordIsRunNext. -/
theorem witness_placed : State.reset.mem.wf ∧ decodeTableWord 16 0xFF65 = some (.loadRegs 15) := by decide

/-- DrawXorsTheSprite: 15 rows ending at 0xFFF, and no row with `I` outside memory. -/
theorem witness_draw : 15 < 16 ∧ Readable (start [] 0xFF1) 15 ∧ Readable (start [] 0xFFFF) 0 ∧
    ¬ Readable (start [] 0xFF2) 15 := by unfold Readable; decide

/-- DrawXorsTheSprite: a set cell under the sprite (V6), and a sprite over clear cells (S5). -/
theorem witness_draw_clauses :
    (∃ px py, Covers (start [] 0x300 [0xC0]) 1 0 0 px py ∧
      Framebuffer.pixel ({ start [] 0x300 [0xC0] with fb := Framebuffer.blank.toggle 1 0 }).fb px py = true) ∧
    (∀ px py, Covers (start [] 0x300 [0x3C]) 1 3 4 px py → Framebuffer.pixel (start [] 0x300 [0x3C]).fb px py = false) := by
  refine ⟨⟨1, 0, ⟨0, by decide, 1, by decide, by decide, by decide, by decide⟩, by decide⟩, fun px py _ => ?_⟩
  show (Vector.replicate 32 (Vector.replicate 64 false))[py.val][px.val] = false
  simp

/-- DrawTwiceRestoresTheScreen, SecondDrawAlwaysCollides (S5). -/
theorem witness_draw_twice :
    ∃ t u, exec (.draw 0 1 1) (start [(0, 3), (1, 4)] 0x300 [0x3C]) = .next t ∧ exec (.draw 0 1 1) t = .next u ∧
      (∃ row < 1, ∃ col < 8, spriteBit (start [(0, 3), (1, 4)] 0x300 [0x3C]) row col = true) ∧ t.reg regVF = 0 ∧
      (0 : Reg) ≠ regVF ∧ (1 : Reg) ≠ regVF :=
  ⟨_, _, rfl, rfl, ⟨0, by decide, 2, by decide, by decide⟩, by decide, by decide, by decide⟩

/-- JumpIsAbsolute: a Jump to itself (V13). -/
theorem witness_jump : State.reset.pc.toNat = (0x200 : Addr12).toNat := by decide

/-- CallStacksItsOwnAddress, ReturnGoesPastTheCall: depths 15, 16; 1, 16, 0. -/
theorem witness_stack : (nested 15).sp.val < 16 ∧ (nested 16).sp.val = 16 ∧
    (nested 1).sp.val = (0 : Fin 16).val + 1 ∧ (nested 16).sp.val = (15 : Fin 16).val + 1 ∧ (nested 0).sp.val = 0 := by
  decide

/-- CallThenReturnComesBack. -/
theorem witness_call : ∃ t u : State, exec (.call 0xFFF) (nested 15) = .next t ∧ u.sp = t.sp ∧ u.stack = t.stack :=
  ⟨_, _, rfl, rfl, rfl⟩

/-- AddCGivesSumAndCarry, SubtractionsGiveDifferenceAndNoBorrow, ShiftsMoveOneBit, FlagRegisterAsOperand. -/
theorem witness_not_VF : (0 : Reg) ≠ regVF ∧ (14 : Reg) ≠ regVF := by decide

/-- StoreBCDStoresTheDigits: just below the font, just above it, the end of memory. -/
theorem witness_storeBCD : (start [] 0x04D).mem.wf ∧ Writable (start [] 0x04D) 3 ∧ Writable (start [] 0x0A0) 3 ∧
    Writable (start [] 0xFFD) 3 := by unfold Writable Readable; decide

/-- StoreRegsStoresTheRegisters: one register below the font, all 16 at the end of memory. -/
theorem witness_storeRegs : (start [] 0x04F).mem.wf ∧ Writable (start [] 0x04F) ((0 : Reg).val + 1) ∧
    Writable (start [] 0xFF0) ((15 : Reg).val + 1) := by unfold Writable Readable; decide

/-- LoadRegsLoadsTheRegisters: five from the font, all 16 from the end of memory. -/
theorem witness_loadRegs : Readable (start [] 0x050) ((4 : Reg).val + 1) ∧ Readable (start [] 0xFF0) ((15 : Reg).val + 1) := by
  unfold Readable; decide

/-- LoadRegsUndoesStoreRegs. -/
theorem witness_store_then_load : (start [(15, 9)] 0xFF0).mem.wf ∧
    ∃ t u : State, exec (.storeRegs 15) (start [(15, 9)] 0xFF0) = .next t ∧ u.mem = t.mem ∧ u.i = t.i :=
  ⟨by decide, _, _, rfl, rfl, rfl⟩

/-- IndexAccessFaults: each side of each edge. -/
theorem witness_index_faults : ¬ Readable (start [] 0xFFE) 3 ∧ Readable (start [] 0x04E) 3 ∧ ¬ Writable (start [] 0x04E) 3 ∧
    Readable (start [] 0x09F) 1 ∧ ¬ Writable (start [] 0x09F) 1 ∧ ¬ Readable (start [] 0xFF1) 16 := by
  unfold Writable Readable; decide

/-- StoredBytesAreFetchedAtOnce (P7, step 4). -/
theorem witness_stored_fetched :
    let s : State := { start [(0, 0x12), (1, 0x0A)] 0x208 with pc := 0x206 }
    s.mem.wf ∧ (1 : Reg) ≤ 1 ∧ (1 : Reg).val = (0 : Reg).val + 1 ∧
    ∃ t, exec (.storeRegs 1) s = .next t ∧ t.pc.toNat = dataAddr s (0 : Reg).val :=
  ⟨by decide, by decide, by decide, _, rfl, by decide⟩

/-- KeypadSkips: key 15, and 16. -/
theorem witness_keypad : ((start [(3, 15)]).reg 3).toNat = (15 : Fin 16).val ∧ 15 < ((start [(3, 16)]).reg 3).toNat := by
  decide

/-- WaitKeyReportsTheLowestKey: key 0, key 15, no key. -/
theorem witness_waitKey :
    ((pressing [0] State.reset).keyDown 0 = true ∧ ∀ j, j < 0 → (pressing [0] State.reset).keyDown j = false) ∧
    ((pressing [15] State.reset).keyDown 15 = true ∧ ∀ j, j < 15 → (pressing [15] State.reset).keyDown j = false) ∧
    ∀ j, State.reset.keyDown j = false := by decide

/-- SetKeyEndsTheWait. -/
theorem witness_wait :
    let c : Session := { machine := State.reset.withFetchWord 16 0xF50A, phase := .loaded }
    let pre : List Operation := [.step 0, .tickTimers, .snapshot, .clearDrawFlag, .step 0xFF]
    c.machine.pc.toNat ≤ 0xFFE ∧
    decode [c.machine.mem.read c.machine.pc.toNat, c.machine.mem.read (c.machine.pc.toNat + 1)] = .ok (.waitKey 5, []) ∧
    (∀ j, c.machine.keyDown j = false) ∧ 15 < 16 ∧
    (∀ op ∈ pre, (∃ b, op = .step b) ∨ op = .tickTimers ∨ op = .clearDrawFlag ∨ op = .snapshot) :=
  ⟨by decide, by decide, by decide, by decide, by simp⟩

/-- SetKeyWritesOneKey: key 15, index 16, an instruction that is no WaitKey. -/
theorem witness_set_key : (15 : Fin 16).val = 15 ∧ 16 ≤ 16 ∧ (∃ t, exec .clear State.reset = .next t) ∧
    ∀ x, Instr.clear ≠ .waitKey x := ⟨rfl, le_refl _, ⟨_, rfl⟩, fun _ => nofun⟩

/-- RunningOperationsAlwaysComplete: a faulting step among them. -/
theorem witness_running :
    ∀ op ∈ [Operation.step 0, .setKey 0 true, .setKey 15 false, .tickTimers, .clearDrawFlag, .snapshot], whileRunning op = true := by
  decide

/-- InstructionsWriteOnlyWhatIsListed, OnlyTransfersAndSkipsDoMoreThanAdvance. -/
theorem witness_exec_next : State.reset.mem.wf ∧ (∃ t, exec (.storeRegs 15) State.reset = .next t) ∧
    isTransfer (.storeRegs 15) = false := ⟨by decide, ⟨_, rfl⟩, rfl⟩

/-- A state with a byte of the program listed, a full stack of legal return addresses and the largest pc. -/
def edge : State :=
  { State.reset with mem := [(0x200, 0x12)], sp := 16, stack := Vector.replicate 16 0xFFE, pc := 0x10FE }

/-- StepKeepsTheInvariant, OperationsKeepTheInvariant: the edge state meets the invariant; so does the state of a
program about to run, whose step has a next state. -/
theorem witness_inv : Safety.Inv edge ∧ Safety.Inv { edge with pc := 0x200 } ∧
    (∃ t, step { edge with pc := 0x200 } = .next t) ∧
    ∃ outs d, performAll [.step 0, .reset] { machine := edge, phase := .running } = .ok (outs, d) := by
  have font : ∀ a, inFont a = true → Memory.read [(0x200, 0x12)] a = resetByte a := by
    intro a ha
    have h : 0x200 ≠ a := by
      intro h
      subst h
      exact absurd ha (by decide)
    show (if 0x200 = a then (0x12 : Byte) else resetByte a) = resetByte a
    rw [if_neg h]
  have addrs : ∀ k : Fin 16, k.val < edge.sp.val → edge.stack[k.val].toNat ≤ 0xFFE := by decide
  exact ⟨⟨by decide, by decide, font, by decide, addrs⟩, ⟨by decide, by decide, font, by decide, addrs⟩, ⟨_, rfl⟩, _, _, rfl⟩

/-- DrawFlagAndSoundTimerAreNeverRead: two states that differ. -/
theorem witness_same_but : SameButDrawAndSound State.reset { State.reset with drawFlag := true, st := 7 } ∧
    State.reset ≠ { State.reset with drawFlag := true, st := 7 } := ⟨rfl, by decide⟩

/-- RandAloneReadsTheInput: a CXNN at pc, and a word that is none. -/
theorem witness_rand : fetch ((start []).withFetchWord 16 0xCFFF) = some (encode (.rand 15 0xFF)) ∧
    ∀ x nn, fetch State.reset ≠ some (encode (.rand x nn)) := by
  refine ⟨by decide, fun x nn h => ?_⟩
  have h0 : fetch State.reset = some 0#16 := rfl
  rw [h0, Option.some.injEq] at h
  have hx := x.isLt
  have hn := nn.isLt
  have := congrArg BitVec.toNat h
  simp only [encode, encodeXNN, BitVec.toNat_ofNat] at this
  omega

/-- EveryStepReturnsAStatus: a step with its input presented. -/
theorem witness_status : ∃ o rnd, o = stepWith rnd State.reset := ⟨_, 0, rfl⟩

/-- EndOfRunIsFinal (V13, and the highest address). -/
theorem witness_at_end :
    let c : Session := { machine := State.reset.withFetchWord 16 0x1200, phase := .loaded }
    let ops : List Operation := [.step 0, .tickTimers, .setKey 3 true, .clearDrawFlag, .snapshot]
    atEnd c.machine = true ∧ atEnd ({ State.reset with pc := 0xFFE }.withFetchWord 16 0x1FFE) = true ∧
    (∀ op ∈ ops, whileRunning op = true) ∧ ∃ outs d, performAll ops c = .ok (outs, d) :=
  ⟨by decide, by decide, by decide, _, _, rfl⟩

end Sys2Proof.Tests
end

section
/-! The state after reset (10_state.md R27, 70_reset_and_hazards.md R150): what each element that is more than one value
holds, and that the operation `reset` gives it in any session. -/

namespace Sys2Proof.Proofs

open Sys2Proof.Machine Sys2Proof.Safety

/-! ## The reset contents of memory -/

theorem inFont_eq_true_iff (a : Nat) : inFont a = true ↔ fontBase ≤ a ∧ a < fontBase + fontSize := by
  simp [inFont]

theorem length_font : font.length = fontSize := rfl

theorem resetByte_font {k : Nat} (hk : k < fontSize) : some (resetByte (fontBase + k)) = font[k]? := by
  have hin : inFont (fontBase + k) = true := (inFont_eq_true_iff _).mpr ⟨by omega, by omega⟩
  have hlen : k < font.length := length_font ▸ hk
  rw [resetByte, if_pos hin, Nat.add_sub_cancel_left, List.getD_eq_getElem _ _ hlen, List.getElem?_eq_getElem hlen]

theorem resetByte_of_not_font {a : Nat} (ha : a < fontBase ∨ fontBase + fontSize ≤ a) : resetByte a = 0 := by
  have hout : ¬ inFont a = true := fun h => by
    have := (inFont_eq_true_iff a).mp h
    omega
  rw [resetByte, if_neg hout]

/-! ## The elements of the reset state -/

@[simp] theorem reg_reset (r : Reg) : State.reset.reg r = 0 := Vector.getElem_replicate r.isLt

@[simp] theorem stack_reset (k : Fin 16) : State.reset.stack[k.val] = 0 := Vector.getElem_replicate k.isLt

@[simp] theorem keyDown_reset (k : Fin 16) : State.reset.keyDown k = false := Vector.getElem_replicate k.isLt

@[simp] theorem fb_reset : State.reset.fb = Framebuffer.blank := rfl

@[simp] theorem read_reset (a : Nat) : State.reset.mem.read a = resetByte a := rfl

/-! ## The operation -/

/-- The model's own draw counter goes on through a reset; every element of the spec's state is that of `State.reset`. -/
theorem resetMachine_onlyWrites (s : State) : OnlyWrites [.rndCount] State.reset (resetMachine s) := by
  intro p hp
  cases p with
  | rndCount => simp at hp
  | i | pc | sp | dt | st | drawFlag => rfl
  | v | stack | key | mem => exact fun _ => rfl
  | fb => exact fun _ _ => rfl

/-- Settles O13: the operation by the frame of `resetMachine`, each element of the reset state by its own lemma. -/
theorem resetGivesTheListedState : Obligations.ResetGivesTheListedState := by
  unfold Obligations.ResetGivesTheListedState
  have hpixel (x : Fin 64) (y : Fin 32) : Framebuffer.pixel State.reset.fb x y = false := by
    rw [fb_reset, Laws.pixel_blank]
  exact ⟨fun c => ⟨resetMachine c.machine, rfl, resetMachine_onlyWrites c.machine⟩,
    reg_reset, rfl, rfl, stack_reset, rfl, rfl, rfl, keyDown_reset, hpixel, rfl,
    fun _ => resetByte_font, fun _ => resetByte_of_not_font⟩

end Sys2Proof.Proofs
end

section
/-! Fetch (20_memory.md R37): the two bytes of a fetched word. -/

namespace Sys2Proof.Proofs

open Sys2Proof.Machine Sys2Proof.Laws

/-- The first byte of a word is its bits 15:8. -/
@[simp] theorem extractLsb'_wordOfBytes_high (hi lo : Byte) : (wordOfBytes hi lo).extractLsb' 8 8 = hi := by
  have hhi := hi.isLt
  have hlo := lo.isLt
  apply BitVec.eq_of_toNat_eq
  rw [BitVec.extractLsb'_toNat, toNat_wordOfBytes, Nat.shiftRight_eq_div_pow]
  omega

/-- The second byte of a word is its bits 7:0. -/
@[simp] theorem extractLsb'_wordOfBytes_low (hi lo : Byte) : (wordOfBytes hi lo).extractLsb' 0 8 = lo := by
  have hlo := lo.isLt
  apply BitVec.eq_of_toNat_eq
  rw [BitVec.extractLsb'_toNat, toNat_wordOfBytes, Nat.shiftRight_zero]
  omega

/-- A fetch within memory answers the word of the two bytes at `pc`. -/
theorem fetch_of_pc_le {s : State} (hp : s.pc.toNat ≤ 0xFFE) :
    fetch s = some (wordOfBytes (s.mem.read s.pc.toNat) (s.mem.read (s.pc.toNat + 1))) := by
  rcases fetch_cases s with ⟨-, hf⟩ | ⟨hbeyond, -⟩
  · exact hf
  · omega

/-- Settles O7: the fetched word is that of the two bytes at `pc`, whose value and halves are those of `wordOfBytes`. -/
theorem fetchIsBigEndian : Obligations.FetchIsBigEndian := by
  unfold Obligations.FetchIsBigEndian
  intro s hp
  exact ⟨_, fetch_of_pc_le hp, toNat_wordOfBytes _ _, extractLsb'_wordOfBytes_high _ _, extractLsb'_wordOfBytes_low _ _⟩

end Sys2Proof.Proofs
end

section
/-! The fields of a word (30_encoding.md R56): a contiguous mask with its shift is a quotient and a remainder. -/

namespace Sys2Proof.Proofs

/-- Masking the low `n` bits is the remainder modulo `2 ^ n`. -/
theorem toNat_and_lowMask {n : Nat} {m : Word} (hm : m.toNat = 2 ^ n - 1) (w : Word) :
    (w &&& m).toNat = w.toNat % 2 ^ n := by
  rw [BitVec.toNat_and, hm, Nat.and_two_pow_sub_one_eq_mod]

/-- A mask that, shifted by `k`, keeps the low `n` bits picks the `n` bits from bit `k` up. -/
theorem toNat_and_ushiftRight {k n : Nat} {m : Word} (hm : (m >>> k).toNat = 2 ^ n - 1) (w : Word) :
    ((w &&& m) >>> k).toNat = w.toNat / 2 ^ k % 2 ^ n := by
  rw [BitVec.ushiftRight_and_distrib, toNat_and_lowMask hm, BitVec.toNat_ushiftRight, Nat.shiftRight_eq_div_pow]

theorem fieldF_eq_and_ushiftRight (w : Word) : fieldF w = ((w &&& 0xF000#16) >>> 12).toNat := by
  have hquot : w.toNat / 2 ^ 12 < 2 ^ 4 := Laws.fieldF_lt w
  rw [toNat_and_ushiftRight (n := 4) rfl, Nat.mod_eq_of_lt hquot]
  rfl

theorem fieldX_eq_and_ushiftRight (w : Word) : (fieldX w).val = ((w &&& 0x0F00#16) >>> 8).toNat :=
  (toNat_and_ushiftRight (k := 8) (n := 4) (m := 0x0F00#16) rfl w).symm

theorem fieldY_eq_and_ushiftRight (w : Word) : (fieldY w).val = ((w &&& 0x00F0#16) >>> 4).toNat :=
  (toNat_and_ushiftRight (k := 4) (n := 4) (m := 0x00F0#16) rfl w).symm

theorem fieldN_eq_and (w : Word) : fieldN w = (w &&& 0x000F#16).toNat :=
  (toNat_and_lowMask (n := 4) (m := 0x000F#16) rfl w).symm

theorem fieldNN_eq_and (w : Word) : (fieldNN w).toNat = (w &&& 0x00FF#16).toNat := by
  rw [fieldNN, BitVec.toNat_ofNat, toNat_and_lowMask (n := 8) rfl]

theorem fieldNNN_eq_and (w : Word) : (fieldNNN w).toNat = (w &&& 0x0FFF#16).toNat := by
  rw [fieldNNN, BitVec.toNat_ofNat, toNat_and_lowMask (n := 12) rfl]

/-- Settles O1: each field by its own lemma; only the top nibble needs that a word is below `2 ^ 16`. -/
theorem fieldsAreTheMasksAndShifts : Obligations.FieldsAreTheMasksAndShifts := by
  unfold Obligations.FieldsAreTheMasksAndShifts
  exact fun w => ⟨fieldF_eq_and_ushiftRight w, fieldX_eq_and_ushiftRight w, fieldY_eq_and_ushiftRight w,
    fieldN_eq_and w, fieldNN_eq_and w, fieldNNN_eq_and w⟩

end Sys2Proof.Proofs
end

section
/-! Absolute jumps (41_flow.md R75, R77): the target, the frame, and a jump to its own address. -/

namespace Sys2Proof.Proofs

open Sys2Proof.Machine Sys2Proof.Safety

@[simp] theorem toNat_addrOf (nnn : Addr12) : (addrOf nnn).toNat = nnn.toNat :=
  BitVec.toNat_setWidth_of_le (by decide)

theorem exec_jump (nnn : Addr12) (s : State) : exec (.jump nnn) s = .next (s.jumpTo (addrOf nnn)) := rfl

theorem jumpTo_onlyWrites (s : State) (target : Word) : OnlyWrites [.pc] s (s.jumpTo target) := by
  intro p hp
  cases p with
  | pc => simp at hp
  | i | sp | dt | st | drawFlag | rndCount => rfl
  | v | stack | key | mem => exact fun _ => rfl
  | fb => exact fun _ _ => rfl

@[simp] theorem jumpTo_pc_self (s : State) : s.jumpTo s.pc = s := rfl

/-- Settles O21: the target and the frame of `jumpTo`; a jump to its own address is a jump to `pc`. -/
theorem jumpIsAbsolute : Obligations.JumpIsAbsolute := by
  unfold Obligations.JumpIsAbsolute
  intro nnn s
  refine ⟨_, exec_jump nnn s, toNat_addrOf nnn, jumpTo_onlyWrites s _, fun hself => ?_⟩
  have htarget : addrOf nnn = s.pc := BitVec.eq_of_toNat_eq ((toNat_addrOf nnn).trans hself.symm)
  rw [htarget, jumpTo_pc_self]

end Sys2Proof.Proofs
end

section
/-! Conditional skips (42_skip.md R80 to R84): what a skip does once its condition is known, and the four register
skips, each by its own condition. -/

namespace Sys2Proof.Proofs

open Sys2Proof.Machine Sys2Proof.Safety

/-! ## What a skip does -/

theorem skipIf_pc_eq_add (s : State) (c : Bool) : (s.skipIf c).pc = s.pc + (if c then 4 else 2) := by
  cases c <;> rfl

/-- A skip is a jump whose target its condition chooses, so it has a jump's frame. -/
theorem skipIf_onlyWrites (s : State) (c : Bool) : OnlyWrites [.pc] s (s.skipIf c) := jumpTo_onlyWrites s _

section
variable {i : Instr} {s : State} {c : Bool} {p : Prop} [Decidable p]

theorem completes_skip_when (hexec : exec i s = .next (s.skipIf c)) (hcond : c = true ↔ p) :
    Completes i s fun t => t.pc = s.pc + (if p then 4 else 2) ∧ OnlyWrites [.pc] s t := by
  refine ⟨_, hexec, ?_, skipIf_onlyWrites s c⟩
  rw [skipIf_pc_eq_add, if_congr hcond rfl rfl]

theorem completes_skip_unless (hexec : exec i s = .next (s.skipIf c)) (hcond : c = true ↔ ¬ p) :
    Completes i s fun t => t.pc = s.pc + (if p then 2 else 4) ∧ OnlyWrites [.pc] s t := by
  have hskip := completes_skip_when hexec hcond
  rwa [ite_not] at hskip

end

/-! ## The register skips -/

theorem exec_skipEqN (x : Reg) (nn : Byte) (s : State) :
    exec (.skipEqN x nn) s = .next (s.skipIf (s.reg x == nn)) := rfl

theorem exec_skipNeN (x : Reg) (nn : Byte) (s : State) :
    exec (.skipNeN x nn) s = .next (s.skipIf (s.reg x != nn)) := rfl

theorem exec_skipEqV (x y : Reg) (s : State) :
    exec (.skipEqV x y) s = .next (s.skipIf (s.reg x == s.reg y)) := rfl

theorem exec_skipNeV (x y : Reg) (s : State) :
    exec (.skipNeV x y) s = .next (s.skipIf (s.reg x != s.reg y)) := rfl

/-- Settles O26: two instructions skip when two bytes are equal, two unless they are. -/
theorem registerSkipsMoveByFourOrTwo : Obligations.RegisterSkipsMoveByFourOrTwo := by
  unfold Obligations.RegisterSkipsMoveByFourOrTwo
  exact fun x y nn s =>
    ⟨completes_skip_when (exec_skipEqN x nn s) beq_iff_eq,
      completes_skip_unless (exec_skipNeN x nn s) bne_iff_ne,
      completes_skip_when (exec_skipEqV x y s) beq_iff_eq,
      completes_skip_unless (exec_skipNeV x y s) bne_iff_ne⟩

end Sys2Proof.Proofs
end

section
/-! Register load and logic (43_alu.md R86 to R91): what storing a result in `V[X]` does, and the six instructions that
do nothing else, each by its own result. -/

namespace Sys2Proof.Proofs

open Sys2Proof.Machine Sys2Proof.Safety

/-! ## Storing a result -/

theorem loadResult_eq (x : Reg) (b : Byte) (s : State) : loadResult x b s = .next (s.setReg x b).advance := rfl

theorem advance_setReg_onlyRegs (s : State) (x : Reg) (b : Byte) : OnlyRegs [x] s (s.setReg x b).advance := by
  intro r hr
  have hne : r ≠ x := List.ne_of_not_mem_cons hr
  rw [Laws.reg_advance, Laws.reg_setReg, if_neg hne]

theorem advance_setReg_onlyWrites (s : State) (x : Reg) (b : Byte) :
    OnlyWrites [.v, .pc] s (s.setReg x b).advance := by
  intro p hp
  cases p with
  | v | pc => simp at hp
  | i | sp | dt | st | drawFlag | rndCount => rfl
  | stack | key | mem => exact fun _ => rfl
  | fb => exact fun _ _ => rfl

/-- An instruction that only stores a result: what is known of the result is then known of `V[X]`. -/
theorem completes_loadResult (P : Byte → Prop) {i : Instr} {s : State} {x : Reg} {b : Byte}
    (hexec : exec i s = loadResult x b s) (hresult : P b) :
    Completes i s fun t =>
      P (t.reg x) ∧ t.pc = s.pc + 2 ∧ OnlyRegs [x] s t ∧ OnlyWrites [.v, .pc] s t := by
  refine ⟨_, hexec.trans (loadResult_eq x b s), ?_, rfl, advance_setReg_onlyRegs s x b,
    advance_setReg_onlyWrites s x b⟩
  rwa [Laws.reg_advance, Laws.reg_setReg, if_pos rfl]

/-! ## The instructions and their results -/

theorem exec_loadN (x : Reg) (nn : Byte) (s : State) : exec (.loadN x nn) s = loadResult x nn s := rfl

theorem exec_addN (x : Reg) (nn : Byte) (s : State) : exec (.addN x nn) s = loadResult x (s.reg x + nn) s := rfl

theorem exec_move (x y : Reg) (s : State) : exec (.move x y) s = loadResult x (s.reg y) s := rfl

theorem exec_or (x y : Reg) (s : State) : exec (.or x y) s = loadResult x (s.reg x ||| s.reg y) s := rfl

theorem exec_and (x y : Reg) (s : State) : exec (.and x y) s = loadResult x (s.reg x &&& s.reg y) s := rfl

theorem exec_xor (x y : Reg) (s : State) : exec (.xor x y) s = loadResult x (s.reg x ^^^ s.reg y) s := rfl

/-- Settles O27: each of the three stores one result; the sum of two bytes is modulo `2 ^ 8`. -/
theorem loadAddMoveWriteOneRegister : Obligations.LoadAddMoveWriteOneRegister := by
  unfold Obligations.LoadAddMoveWriteOneRegister
  exact fun x y nn s =>
    ⟨completes_loadResult (· = nn) (exec_loadN x nn s) rfl,
      completes_loadResult (·.toNat = ((s.reg x).toNat + nn.toNat) % 256) (exec_addN x nn s) (BitVec.toNat_add _ _),
      completes_loadResult (· = s.reg y) (exec_move x y s) rfl⟩

/-- Settles O28: each of the three stores one result, whose bits are those of the bitwise operation. -/
theorem logicIsBitwise : Obligations.LogicIsBitwise := by
  unfold Obligations.LogicIsBitwise
  exact fun x y s =>
    ⟨completes_loadResult (fun c => ∀ k < 8, c.getLsbD k = ((s.reg x).getLsbD k || (s.reg y).getLsbD k))
        (exec_or x y s) fun _ _ => BitVec.getLsbD_or,
      completes_loadResult (fun c => ∀ k < 8, c.getLsbD k = ((s.reg x).getLsbD k && (s.reg y).getLsbD k))
        (exec_and x y s) fun _ _ => BitVec.getLsbD_and,
      completes_loadResult (fun c => ∀ k < 8, c.getLsbD k = ((s.reg x).getLsbD k ^^ (s.reg y).getLsbD k))
        (exec_xor x y s) fun _ _ => BitVec.getLsbD_xor⟩

end Sys2Proof.Proofs
end

section
/-! Index register and memory (44_index_memory.md R101): what writing `I` and going on to the next instruction changes,
and the instruction whose index is `NNN`. -/

namespace Sys2Proof.Proofs

open Sys2Proof.Machine Sys2Proof.Safety

theorem advance_index_onlyWrites (s : State) (w : Word) : OnlyWrites [.i, .pc] s { s with i := w }.advance := by
  intro p hp
  cases p with
  | i | pc => simp at hp
  | sp | dt | st | drawFlag | rndCount => rfl
  | v | stack | key | mem => exact fun _ => rfl
  | fb => exact fun _ _ => rfl

theorem exec_loadI (nnn : Addr12) (s : State) : exec (.loadI nnn) s = .next { s with i := addrOf nnn }.advance := rfl

/-- Settles O33: the index is `NNN` zero-extended, and the frame is that of writing `I`. -/
theorem loadISetsTheIndex : Obligations.LoadISetsTheIndex := by
  unfold Obligations.LoadISetsTheIndex
  exact fun nnn s => ⟨_, exec_loadI nnn s, toNat_addrOf nnn, rfl, advance_index_onlyWrites s _⟩

end Sys2Proof.Proofs
end

section
/-! The timers (45_random_keypad_timers.md R114, R116, R117): what writing a timer and going on to the next instruction
changes, and the three instructions that move a byte between a register and a timer. -/

namespace Sys2Proof.Proofs

open Sys2Proof.Machine Sys2Proof.Safety

/-- Both timers at once: a timer that the frame does not list must be written with the value it has. -/
theorem advance_timers_onlyWrites {parts : List Part} {s : State} {d e : Byte} (hpc : .pc ∈ parts)
    (hdt : .dt ∉ parts → d = s.dt) (hst : .st ∉ parts → e = s.st) :
    OnlyWrites parts s { s with dt := d, st := e }.advance := by
  intro p hp
  cases p with
  | pc => exact absurd hpc hp
  | dt => exact hdt hp
  | st => exact hst hp
  | i | sp | drawFlag | rndCount => rfl
  | v | stack | key | mem => exact fun _ => rfl
  | fb => exact fun _ _ => rfl

theorem advance_delay_onlyWrites (s : State) (b : Byte) : OnlyWrites [.dt, .pc] s { s with dt := b }.advance :=
  advance_timers_onlyWrites (by decide) (fun hdt => absurd (by decide) hdt) fun _ => rfl

theorem advance_sound_onlyWrites (s : State) (b : Byte) : OnlyWrites [.st, .pc] s { s with st := b }.advance :=
  advance_timers_onlyWrites (by decide) (fun _ => rfl) fun hst => absurd (by decide) hst

theorem exec_readDelay (x : Reg) (s : State) : exec (.readDelay x) s = loadResult x s.dt s := rfl

theorem exec_writeDelay (x : Reg) (s : State) : exec (.writeDelay x) s = .next { s with dt := s.reg x }.advance := rfl

theorem exec_writeSound (x : Reg) (s : State) : exec (.writeSound x) s = .next { s with st := s.reg x }.advance := rfl

/-- Settles O43: the read stores one result, the delay timer's value; the two writes are framed by the timer they set. -/
theorem timerTransfers : Obligations.TimerTransfers := by
  unfold Obligations.TimerTransfers
  exact fun x s =>
    ⟨completes_loadResult (· = s.dt) (exec_readDelay x s) rfl,
      ⟨_, exec_writeDelay x s, rfl, rfl, advance_delay_onlyWrites s _⟩,
      ⟨_, exec_writeSound x s, rfl, rfl, advance_sound_onlyWrites s _⟩⟩

end Sys2Proof.Proofs
end

section
/-! The host's operations between steps (60_exceptions.md R131, R142, R143): what a tick does to a timer and when it
sounds, and what a tick and the renderer's two operations leave unchanged. -/

namespace Sys2Proof.Proofs

open Sys2Proof.Machine Sys2Proof.Safety

/-! ## The tick -/

/-- The floor at 0 of R131 is that of subtraction on the natural numbers. -/
@[simp] theorem toNat_countDown (b : Byte) : (countDown b).toNat = b.toNat - 1 := by
  unfold countDown
  split
  · next hzero => subst hzero; rfl
  · next hpos =>
    have hle : 1#8 ≤ b := by bv_omega
    exact BitVec.toNat_sub_of_le hle

theorem toneOf_eq_true_iff (s : State) : toneOf s = true ↔ s.st.toNat = 1 :=
  beq_iff_eq.trans BitVec.toNat_inj.symm

theorem tickTimers_onlyWrites (s : State) : OnlyWrites [.dt, .st] s (tickTimers s) := by
  intro p hp
  cases p with
  | dt | st => simp at hp
  | i | pc | sp | drawFlag | rndCount => rfl
  | v | stack | key | mem => exact fun _ => rfl
  | fb => exact fun _ _ => rfl

theorem perform_tickTimers (c : Session) :
    perform .tickTimers c = .ok (.tone (toneOf c.machine), { c with machine := tickTimers c.machine }) := rfl

/-- Settles O46: the tone and the frame of `tickTimers`, and each timer by `toNat_countDown`. -/
theorem tickCountsDownAndSounds : Obligations.TickCountsDownAndSounds := by
  unfold Obligations.TickCountsDownAndSounds
  exact fun c =>
    ⟨_, _, perform_tickTimers c, toneOf_eq_true_iff c.machine, toNat_countDown c.machine.dt,
      toNat_countDown c.machine.st, tickTimers_onlyWrites c.machine⟩

/-! ## The renderer's operations -/

theorem clearDrawFlag_onlyWrites (s : State) : OnlyWrites [.drawFlag] s (clearDrawFlag s) := by
  intro p hp
  cases p with
  | drawFlag => simp at hp
  | i | pc | sp | dt | st | rndCount => rfl
  | v | stack | key | mem => exact fun _ => rfl
  | fb => exact fun _ _ => rfl

theorem perform_clearDrawFlag (c : Session) :
    perform .clearDrawFlag c = .ok (.nothing, { c with machine := clearDrawFlag c.machine }) := rfl

theorem perform_snapshot (c : Session) : perform .snapshot c = .ok (.snapshot c.machine, c) := rfl

/-- Settles O49: the frame of `clearDrawFlag`; a snapshot is the session's machine and the session stays. -/
theorem rendererOperations : Obligations.RendererOperations := by
  unfold Obligations.RendererOperations
  exact fun c =>
    ⟨⟨_, perform_clearDrawFlag c, Laws.clearDrawFlag_drawFlag c.machine, clearDrawFlag_onlyWrites c.machine⟩,
      perform_snapshot c⟩

end Sys2Proof.Proofs
end

section
/-! Decoding and encoding (30_encoding.md R57 to R60): decoding undoes encoding on well-formed instructions, encoding
undoes decoding on words, and what follows of the opcode map and of the unknown words. -/

namespace Sys2Proof.Proofs

open Sys2Proof.Laws

/-! ## Decoding undoes encoding -/

theorem decodeWord_encode {i : Instr} (hi : i.WellFormed) : decodeWord (encode i) = .ok i := by
  cases i with
  | clear | ret => rfl
  | jump | call | loadI | jumpOffset =>
    simp [decodeWord, encode, fieldF_encodeNNN, fieldNNN_encodeNNN]
  | skipEqN | skipNeN | loadN | addN | rand =>
    simp [decodeWord, encode, fieldF_encodeXNN, fieldX_encodeXNN, fieldNN_encodeXNN]
  | skipEqV | skipNeV =>
    simp [decodeWord, encode, fieldF_encodeXYN, fieldX_encodeXYN, fieldY_encodeXYN, fieldN_encodeXYN]
  | move | or | and | xor | addC | subB | shr | subBRev | shl =>
    simp [decodeWord, decodeFamily8, encode, fieldF_encodeXYN, fieldX_encodeXYN, fieldY_encodeXYN, fieldN_encodeXYN]
  | draw x y n =>
    have hn : n < 16 := of_decide_eq_true hi
    simp [decodeWord, encode, fieldF_encodeXYN, fieldX_encodeXYN, fieldY_encodeXYN, fieldN_encodeXYN, hn]
  | skipKeyDown | skipKeyUp =>
    simp [decodeWord, decodeFamilyE, encode, fieldF_encodeXNN, fieldX_encodeXNN, fieldNN_encodeXNN]
  | readDelay | waitKey | writeDelay | writeSound | addIndex | loadFont | storeBCD | storeRegs | loadRegs =>
    simp [decodeWord, decodeFamilyF, encode, fieldF_encodeXNN, fieldX_encodeXNN, fieldNN_encodeXNN]

/-- The byte decoder reads its first two bytes as one word. -/
theorem decode_cons_cons (hi lo : Byte) (rest : List Byte) :
    decode (hi :: lo :: rest) = (decodeWord (wordOfBytes hi lo)).map (·, rest) := by
  rw [decode]
  cases decodeWord (wordOfBytes hi lo) <;> rfl

theorem decode_wordBytes_append (w : Word) (rest : List Byte) :
    decode (wordBytes w ++ rest) = (decodeWord w).map (·, rest) := by
  rw [wordBytes, List.cons_append, List.cons_append, List.nil_append, decode_cons_cons, wordOfBytes_highByte_lowByte]

/-- Settles O3: the bytes of an encoding are one word, and decoding that word undoes encoding it. -/
theorem decodeOfEncodeIsTheInstruction : Obligations.DecodeOfEncodeIsTheInstruction := by
  unfold Obligations.DecodeOfEncodeIsTheInstruction
  intro i rest hi
  rw [encodeBytes, decode_wordBytes_append, decodeWord_encode hi]
  rfl

/-! ## Encoding undoes decoding -/

section
variable {w : Word} {f : Nat}

theorem encodeNNN_of_fieldF (hF : fieldF w = f) : encodeNNN f (fieldNNN w) = w := by
  rw [← hF, encodeNNN_fields]

theorem encodeXNN_of_fields {nn : Byte} (hF : fieldF w = f) (hNN : fieldNN w = nn) :
    encodeXNN f (fieldX w) nn = w := by
  rw [← hF, ← hNN, encodeXNN_fields]

theorem encodeXYN_of_fields {n : Nat} (hF : fieldF w = f) (hN : fieldN w = n) :
    encodeXYN f (fieldX w) (fieldY w) n = w := by
  rw [← hF, ← hN, encodeXYN_fields]

end

theorem encode_of_decodeFamily8 {w : Word} {i : Instr} (hF : fieldF w = 0x8) (h : decodeFamily8 w = .ok i) :
    i.WellFormed ∧ encode i = w := by
  unfold decodeFamily8 at h
  split at h <;> cases h <;> exact ⟨rfl, encodeXYN_of_fields hF ‹_›⟩

theorem encode_of_decodeFamilyE {w : Word} {i : Instr} (hF : fieldF w = 0xE) (h : decodeFamilyE w = .ok i) :
    i.WellFormed ∧ encode i = w := by
  unfold decodeFamilyE at h
  split_ifs at h <;> cases h <;> exact ⟨rfl, encodeXNN_of_fields hF ‹_›⟩

theorem encode_of_decodeFamilyF {w : Word} {i : Instr} (hF : fieldF w = 0xF) (h : decodeFamilyF w = .ok i) :
    i.WellFormed ∧ encode i = w := by
  unfold decodeFamilyF at h
  split_ifs at h <;> cases h <;> exact ⟨rfl, encodeXNN_of_fields hF ‹_›⟩

theorem encode_of_decodeWord {w : Word} {i : Instr} (h : decodeWord w = .ok i) : i.WellFormed ∧ encode i = w := by
  unfold decodeWord at h
  split at h
  case h_1 => split_ifs at h <;> cases h <;> exact ⟨rfl, Eq.symm ‹w = _›⟩
  case h_2 hF | h_3 hF | h_11 hF | h_12 hF => cases h; exact ⟨rfl, encodeNNN_of_fieldF hF⟩
  case h_4 hF | h_5 hF | h_7 hF | h_8 hF | h_13 hF => cases h; exact ⟨rfl, encodeXNN_of_fields hF rfl⟩
  case h_6 hF | h_10 hF => split_ifs at h with hN; cases h; exact ⟨rfl, encodeXYN_of_fields hF hN⟩
  case h_9 hF => exact encode_of_decodeFamily8 hF h
  case h_14 hF => cases h; exact ⟨decide_eq_true (fieldN_lt w), encodeXYN_of_fields hF rfl⟩
  case h_15 hF => exact encode_of_decodeFamilyE hF h
  case h_16 =>
    have hlt := fieldF_lt w
    exact encode_of_decodeFamilyF (by grind) h

/-- Settles O4: each family keeps the digits that its decoder looked at. -/
theorem encodeOfDecodeIsTheWord : Obligations.EncodeOfDecodeIsTheWord := by
  unfold Obligations.EncodeOfDecodeIsTheWord
  exact fun _ _ => encode_of_decodeWord

/-- So a word decodes to `i` exactly when it is the encoding of `i` and `i` is well formed. -/
theorem decodeWord_eq_ok_iff {w : Word} {i : Instr} : decodeWord w = .ok i ↔ i.WellFormed ∧ encode i = w :=
  ⟨encode_of_decodeWord, fun ⟨hi, hw⟩ => hw ▸ decodeWord_encode hi⟩

/-! ## The opcode map -/

theorem exists_row_matches_encode {i : Instr} (hi : i.WellFormed) :
    ∃ r ∈ opcodeMap, r.name = i.name ∧ r.matches (encode i) = true := by
  have hrow : EncodeMatches.Statement i := by
    cases i with
    | clear => exact EncodeMatches.clear
    | ret => exact EncodeMatches.ret
    | jump => exact EncodeMatches.jump _
    | call => exact EncodeMatches.call _
    | skipEqN => exact EncodeMatches.skipEqN _ _
    | skipNeN => exact EncodeMatches.skipNeN _ _
    | skipEqV => exact EncodeMatches.skipEqV _ _
    | loadN => exact EncodeMatches.loadN _ _
    | addN => exact EncodeMatches.addN _ _
    | move => exact EncodeMatches.move _ _
    | or => exact EncodeMatches.or _ _
    | and => exact EncodeMatches.and _ _
    | xor => exact EncodeMatches.xor _ _
    | addC => exact EncodeMatches.addC _ _
    | subB => exact EncodeMatches.subB _ _
    | shr => exact EncodeMatches.shr _ _
    | subBRev => exact EncodeMatches.subBRev _ _
    | shl => exact EncodeMatches.shl _ _
    | skipNeV => exact EncodeMatches.skipNeV _ _
    | loadI => exact EncodeMatches.loadI _
    | jumpOffset => exact EncodeMatches.jumpOffset _
    | rand => exact EncodeMatches.rand _ _
    | draw => exact EncodeMatches.draw _ _ _
    | skipKeyDown => exact EncodeMatches.skipKeyDown _
    | skipKeyUp => exact EncodeMatches.skipKeyUp _
    | readDelay => exact EncodeMatches.readDelay _
    | waitKey => exact EncodeMatches.waitKey _
    | writeDelay => exact EncodeMatches.writeDelay _
    | writeSound => exact EncodeMatches.writeSound _
    | addIndex => exact EncodeMatches.addIndex _
    | loadFont => exact EncodeMatches.loadFont _
    | storeBCD => exact EncodeMatches.storeBCD _
    | storeRegs => exact EncodeMatches.storeRegs _
    | loadRegs => exact EncodeMatches.loadRegs _
  exact hrow hi

/-! A word that matches a row decodes to an instruction of the row's name: one lemma per mask and format, then the
rows. -/

/-- The word decodes to an instruction of this name. -/
def DecodesTo (w : Word) (name : String) : Prop := ∃ i, decodeWord w = .ok i ∧ i.name = name

section
variable {w : Word} {name : String} {fmt : Format} {f : Nat}

theorem decodesTo_of_encode {i : Instr} (hi : i.WellFormed) (hw : encode i = w) (hname : i.name = name) :
    DecodesTo w name := ⟨i, decodeWord_eq_ok_iff.mpr ⟨hi, hw⟩, hname⟩

theorem fieldF_of_matches_F000 (hf : f < 16)
    (h : OpcodeRow.matches ⟨name, 0xF000#16, BitVec.ofNat 16 (f * 4096), fmt⟩ w = true) : fieldF w = f := by
  rw [matches_mk_iff, toNat_and_F000, BitVec.toNat_ofNat] at h
  unfold fieldF
  omega

theorem decodesTo_of_matches_fixed {i : Instr} (hi : i.WellFormed) (hname : i.name = name)
    (h : OpcodeRow.matches ⟨name, 0xFFFF#16, encode i, fmt⟩ w = true) : DecodesTo w name := by
  rw [matches_mk_iff, toNat_and_FFFF] at h
  exact decodesTo_of_encode hi (BitVec.eq_of_toNat_eq h.symm) hname

theorem decodesTo_of_matches_nnn (mk : Addr12 → Instr) (hf : f < 16)
    (hmk : ∀ a, (mk a).WellFormed ∧ encode (mk a) = encodeNNN f a ∧ (mk a).name = name)
    (h : OpcodeRow.matches ⟨name, 0xF000#16, BitVec.ofNat 16 (f * 4096), fmt⟩ w = true) : DecodesTo w name := by
  obtain ⟨hwf, henc, hname⟩ := hmk (fieldNNN w)
  exact decodesTo_of_encode hwf (henc.trans (encodeNNN_of_fieldF (fieldF_of_matches_F000 hf h))) hname

theorem decodesTo_of_matches_xnn (mk : Reg → Byte → Instr) (hf : f < 16)
    (hmk : ∀ x nn, (mk x nn).WellFormed ∧ encode (mk x nn) = encodeXNN f x nn ∧ (mk x nn).name = name)
    (h : OpcodeRow.matches ⟨name, 0xF000#16, BitVec.ofNat 16 (f * 4096), fmt⟩ w = true) : DecodesTo w name := by
  obtain ⟨hwf, henc, hname⟩ := hmk (fieldX w) (fieldNN w)
  exact decodesTo_of_encode hwf (henc.trans (encodeXNN_of_fields (fieldF_of_matches_F000 hf h) rfl)) hname

theorem decodesTo_of_matches_xy (mk : Reg → Reg → Instr) (n : Nat) (hf : f < 16) (hn : n < 16)
    (hmk : ∀ x y, (mk x y).WellFormed ∧ encode (mk x y) = encodeXYN f x y n ∧ (mk x y).name = name)
    (h : OpcodeRow.matches ⟨name, 0xF00F#16, BitVec.ofNat 16 (f * 4096 + n), fmt⟩ w = true) : DecodesTo w name := by
  rw [matches_mk_iff, toNat_and_F00F, BitVec.toNat_ofNat] at h
  obtain ⟨hwf, henc, hname⟩ := hmk (fieldX w) (fieldY w)
  have hF : fieldF w = f := by unfold fieldF; omega
  have hN : fieldN w = n := by unfold fieldN; omega
  exact decodesTo_of_encode hwf (henc.trans (encodeXYN_of_fields hF hN)) hname

theorem decodesTo_of_matches_x (mk : Reg → Instr) (nn : Byte) (hf : f < 16)
    (hmk : ∀ x, (mk x).WellFormed ∧ encode (mk x) = encodeXNN f x nn ∧ (mk x).name = name)
    (h : OpcodeRow.matches ⟨name, 0xF0FF#16, BitVec.ofNat 16 (f * 4096 + nn.toNat), fmt⟩ w = true) :
    DecodesTo w name := by
  have hnn := nn.isLt
  rw [matches_mk_iff, toNat_and_F0FF, BitVec.toNat_ofNat] at h
  obtain ⟨hwf, henc, hname⟩ := hmk (fieldX w)
  have hF : fieldF w = f := by unfold fieldF; omega
  have hNN : fieldNN w = nn := BitVec.eq_of_toNat_eq (by rw [fieldNN, BitVec.toNat_ofNat]; omega)
  exact decodesTo_of_encode hwf (henc.trans (encodeXNN_of_fields hF hNN)) hname

theorem decodesTo_of_matches_draw (h : OpcodeRow.matches ⟨name, 0xF000#16, 0xD000#16, fmt⟩ w = true) :
    DecodesTo w "Draw" :=
  decodesTo_of_encode (i := .draw (fieldX w) (fieldY w) (fieldN w)) (decide_eq_true (fieldN_lt w))
    (encodeXYN_of_fields (fieldF_of_matches_F000 (f := 0xD) (by decide) h) rfl) rfl

end

theorem decodesTo_of_matches_low {w : Word} : ∀ r ∈ opcodeMapLow, r.matches w = true → DecodesTo w r.name := by
  simp only [opcodeMapLow, List.forall_mem_cons]
  exact
    ⟨decodesTo_of_matches_fixed (i := .clear) rfl rfl,
      decodesTo_of_matches_fixed (i := .ret) rfl rfl,
      decodesTo_of_matches_nnn (f := 0x1) .jump (by decide) fun _ => ⟨rfl, rfl, rfl⟩,
      decodesTo_of_matches_nnn (f := 0x2) .call (by decide) fun _ => ⟨rfl, rfl, rfl⟩,
      decodesTo_of_matches_xnn (f := 0x3) .skipEqN (by decide) fun _ _ => ⟨rfl, rfl, rfl⟩,
      decodesTo_of_matches_xnn (f := 0x4) .skipNeN (by decide) fun _ _ => ⟨rfl, rfl, rfl⟩,
      decodesTo_of_matches_xy (f := 0x5) .skipEqV 0x0 (by decide) (by decide) fun _ _ => ⟨rfl, rfl, rfl⟩,
      decodesTo_of_matches_xnn (f := 0x6) .loadN (by decide) fun _ _ => ⟨rfl, rfl, rfl⟩,
      decodesTo_of_matches_xnn (f := 0x7) .addN (by decide) fun _ _ => ⟨rfl, rfl, rfl⟩,
      List.forall_mem_nil _⟩

theorem decodesTo_of_matches_alu {w : Word} : ∀ r ∈ opcodeMapAlu, r.matches w = true → DecodesTo w r.name := by
  simp only [opcodeMapAlu, List.forall_mem_cons]
  have row {mk : Reg → Reg → Instr} {n : Nat} {name : String} (hn : n < 16)
      (hmk : ∀ x y, (mk x y).WellFormed ∧ encode (mk x y) = encodeXYN 0x8 x y n ∧ (mk x y).name = name) :
      OpcodeRow.matches ⟨name, 0xF00F#16, BitVec.ofNat 16 (0x8 * 4096 + n), .xy⟩ w = true → DecodesTo w name :=
    decodesTo_of_matches_xy mk n (by decide) hn hmk
  exact
    ⟨row (mk := .move) (n := 0x0) (by decide) fun _ _ => ⟨rfl, rfl, rfl⟩,
      row (mk := .or) (n := 0x1) (by decide) fun _ _ => ⟨rfl, rfl, rfl⟩,
      row (mk := .and) (n := 0x2) (by decide) fun _ _ => ⟨rfl, rfl, rfl⟩,
      row (mk := .xor) (n := 0x3) (by decide) fun _ _ => ⟨rfl, rfl, rfl⟩,
      row (mk := .addC) (n := 0x4) (by decide) fun _ _ => ⟨rfl, rfl, rfl⟩,
      row (mk := .subB) (n := 0x5) (by decide) fun _ _ => ⟨rfl, rfl, rfl⟩,
      row (mk := .shr) (n := 0x6) (by decide) fun _ _ => ⟨rfl, rfl, rfl⟩,
      row (mk := .subBRev) (n := 0x7) (by decide) fun _ _ => ⟨rfl, rfl, rfl⟩,
      row (mk := .shl) (n := 0xE) (by decide) fun _ _ => ⟨rfl, rfl, rfl⟩,
      List.forall_mem_nil _⟩

theorem decodesTo_of_matches_high {w : Word} : ∀ r ∈ opcodeMapHigh, r.matches w = true → DecodesTo w r.name := by
  simp only [opcodeMapHigh, List.forall_mem_cons]
  exact
    ⟨decodesTo_of_matches_xy (f := 0x9) .skipNeV 0x0 (by decide) (by decide) fun _ _ => ⟨rfl, rfl, rfl⟩,
      decodesTo_of_matches_nnn (f := 0xA) .loadI (by decide) fun _ => ⟨rfl, rfl, rfl⟩,
      decodesTo_of_matches_nnn (f := 0xB) .jumpOffset (by decide) fun _ => ⟨rfl, rfl, rfl⟩,
      decodesTo_of_matches_xnn (f := 0xC) .rand (by decide) fun _ _ => ⟨rfl, rfl, rfl⟩,
      decodesTo_of_matches_draw,
      decodesTo_of_matches_x (f := 0xE) .skipKeyDown 0x9E (by decide) fun _ => ⟨rfl, rfl, rfl⟩,
      decodesTo_of_matches_x (f := 0xE) .skipKeyUp 0xA1 (by decide) fun _ => ⟨rfl, rfl, rfl⟩,
      decodesTo_of_matches_x (f := 0xF) .readDelay 0x07 (by decide) fun _ => ⟨rfl, rfl, rfl⟩,
      decodesTo_of_matches_x (f := 0xF) .waitKey 0x0A (by decide) fun _ => ⟨rfl, rfl, rfl⟩,
      decodesTo_of_matches_x (f := 0xF) .writeDelay 0x15 (by decide) fun _ => ⟨rfl, rfl, rfl⟩,
      decodesTo_of_matches_x (f := 0xF) .writeSound 0x18 (by decide) fun _ => ⟨rfl, rfl, rfl⟩,
      decodesTo_of_matches_x (f := 0xF) .addIndex 0x1E (by decide) fun _ => ⟨rfl, rfl, rfl⟩,
      decodesTo_of_matches_x (f := 0xF) .loadFont 0x29 (by decide) fun _ => ⟨rfl, rfl, rfl⟩,
      decodesTo_of_matches_x (f := 0xF) .storeBCD 0x33 (by decide) fun _ => ⟨rfl, rfl, rfl⟩,
      decodesTo_of_matches_x (f := 0xF) .storeRegs 0x55 (by decide) fun _ => ⟨rfl, rfl, rfl⟩,
      decodesTo_of_matches_x (f := 0xF) .loadRegs 0x65 (by decide) fun _ => ⟨rfl, rfl, rfl⟩,
      List.forall_mem_nil _⟩

theorem decodesTo_of_matches {w : Word} {r : OpcodeRow} (hr : r ∈ opcodeMap) (h : r.matches w = true) :
    DecodesTo w r.name := by
  simp only [opcodeMap, List.mem_append] at hr
  rcases hr with (hlow | halu) | hhigh
  · exact decodesTo_of_matches_low r hlow h
  · exact decodesTo_of_matches_alu r halu h
  · exact decodesTo_of_matches_high r hhigh h

theorem row_eq_of_name_eq : ∀ r ∈ opcodeMap, ∀ q ∈ opcodeMap, r.name = q.name → r = q := by decide

theorem matches_of_decodesTo {w : Word} {r : OpcodeRow} (hr : r ∈ opcodeMap) (h : DecodesTo w r.name) :
    r.matches w = true := by
  obtain ⟨i, hdec, hname⟩ := h
  obtain ⟨hwf, rfl⟩ := encode_of_decodeWord hdec
  obtain ⟨q, hq, hqname, hmatches⟩ := exists_row_matches_encode hwf
  rwa [row_eq_of_name_eq r hr q hq (hname.symm.trans hqname.symm)]

/-- A rejected word is rejected by name. -/
theorem eq_unknownWord_of_decodeWord_eq_error {w : Word} {e : DecodeError} (h : decodeWord w = .error e) :
    e = .unknownWord w := by
  unfold decodeWord at h
  split at h
  case h_1 | h_6 | h_10 => split_ifs at h; cases h; rfl
  case h_9 => unfold decodeFamily8 at h; split at h <;> cases h; rfl
  case h_15 => unfold decodeFamilyE at h; split_ifs at h; cases h; rfl
  case h_16 => unfold decodeFamilyF at h; split_ifs at h; cases h; rfl
  all_goals cases h

/-- Settles O5: a word matches the row of a name exactly when it decodes to that name, so it matches none exactly when
it decodes to nothing. -/
theorem decodeFollowsTheOpcodeMap : Obligations.DecodeFollowsTheOpcodeMap := by
  unfold Obligations.DecodeFollowsTheOpcodeMap
  refine fun w => ⟨fun r hr => ⟨decodesTo_of_matches hr, matches_of_decodesTo hr⟩, fun hnone => ?_, fun herr r hr => ?_⟩
  · cases hdec : decodeWord w with
    | error e => rw [eq_unknownWord_of_decodeWord_eq_error hdec]
    | ok i =>
      obtain ⟨hwf, rfl⟩ := encode_of_decodeWord hdec
      obtain ⟨r, hr, -, hmatches⟩ := exists_row_matches_encode hwf
      exact absurd (hnone r hr) (by simp [hmatches])
  · refine Bool.eq_false_iff.mpr fun hmatches => ?_
    obtain ⟨i, hdec, -⟩ := decodesTo_of_matches hr hmatches
    exact absurd (herr.symm.trans hdec) (by simp)

/-! ## The unknown words -/

theorem decodeFamily8_eq_error_iff (w : Word) : decodeFamily8 w = .error (.unknownWord w) ↔
    fieldN w ∈ [0x8, 0x9, 0xA, 0xB, 0xC, 0xD, 0xF] := by
  have hlt := fieldN_lt w
  unfold decodeFamily8
  interval_cases fieldN w <;> simp

theorem decodeFamilyE_eq_error_iff (w : Word) : decodeFamilyE w = .error (.unknownWord w) ↔
    fieldNN w ∉ [0x9E#8, 0xA1#8] := by
  unfold decodeFamilyE
  split_ifs <;> simp_all

theorem decodeFamilyF_eq_error_iff (w : Word) : decodeFamilyF w = .error (.unknownWord w) ↔
    fieldNN w ∉ [0x07#8, 0x0A#8, 0x15#8, 0x18#8, 0x1E#8, 0x29#8, 0x33#8, 0x55#8, 0x65#8] := by
  unfold decodeFamilyF
  split_ifs <;> simp_all

/-- Settles O6: the top nibble says which family decides, and each family rejects what its own lemma says. -/
theorem unknownWordsAreThoseOfTheTable : Obligations.UnknownWordsAreThoseOfTheTable := by
  unfold Obligations.UnknownWordsAreThoseOfTheTable
  intro w
  rw [← decodeFamily8_eq_error_iff, ← decodeFamilyE_eq_error_iff, ← decodeFamilyF_eq_error_iff]
  have hlt := fieldF_lt w
  unfold decodeWord
  interval_cases fieldF w
  · split_ifs <;> simp_all
  all_goals simp

/-- Settles O2: evaluation. -/
theorem writtenOutWordsDecode : Obligations.WrittenOutWordsDecode := by
  unfold Obligations.WrittenOutWordsDecode
  decide

end Sys2Proof.Proofs
end

section
/-! What an instruction can answer (70_reset_and_hazards.md R160, 60_exceptions.md R122): the equations of the
instructions that check something first, the fault of an instruction that is not permitted, and that exactly the
permitted ones complete. -/

namespace Sys2Proof.Proofs

open Sys2Proof.Machine Sys2Proof.Safety Sys2Proof.Laws

/-! ## The guards of an access through `I` -/

section
variable {s : State} {word : Word} {n : Nat} {go : Outcome}

theorem withReadable_of_readable (h : Readable s n) : withReadable s word n go = go := by
  rcases withReadable_cases s word n go with ⟨-, heq⟩ | ⟨hnot, -⟩
  · exact heq
  · exact absurd h hnot

theorem withReadable_of_not_readable (h : ¬ Readable s n) :
    withReadable s word n go = .fault (.memOutOfRange s.pc word s.i) := by
  rcases withReadable_cases s word n go with ⟨hread, -⟩ | ⟨-, heq⟩
  · exact absurd hread h
  · exact heq

theorem withWritable_of_writable (h : Writable s n) : withWritable s word n go = go := by
  rcases withWritable_cases s word n go with ⟨-, heq⟩ | ⟨hnot, -⟩ | ⟨-, hnot, -⟩
  · exact heq
  · exact absurd h.1 hnot
  · exact absurd h hnot

end

/-! ## The instructions that check first -/

/-- The picture and VF that a Draw leaves (40_display.md R72). -/
def drawCanvas (x y : Reg) (n : Nat) (s : State) : Canvas :=
  Canvas.drawRows { fb := s.fb, vf := 0 } (s.readAtI n) (s.reg x).toNat (s.reg y).toNat

theorem exec_draw (x y : Reg) (n : Nat) (s : State) : exec (.draw x y n) s =
    withReadable s (encode (.draw x y n)) n
      (.next
        ({ s with fb := (drawCanvas x y n s).fb, drawFlag := true }.setReg regVF
          (drawCanvas x y n s).vf).advance) := rfl

theorem exec_loadRegs (x : Reg) (s : State) : exec (.loadRegs x) s =
    withReadable s (encode (.loadRegs x)) (x.val + 1)
      (.next { s with v := setRegsFrom s.v 0 (s.readAtI (x.val + 1)) }.advance) := rfl

theorem exec_storeRegs (x : Reg) (s : State) : exec (.storeRegs x) s =
    withWritable s (encode (.storeRegs x)) (x.val + 1) (.next (s.writeAtI (s.v.toList.take (x.val + 1))).advance) := rfl

theorem exec_storeBCD (x : Reg) (s : State) : exec (.storeBCD x) s =
    withWritable s (encode (.storeBCD x)) 3 (.next (s.writeAtI (bcdDigits (s.reg x))).advance) := rfl

theorem exec_ret_of_pop {s : State} {k : Fin 16} {q : Fin 17}
    (hpop : s.pop = some (s.stack[k.val], { s with sp := q })) :
    exec .ret s = .next ({ s with sp := q }.jumpTo (s.stack[k.val] + 2)) := by
  show execRet s = _
  rw [execRet, hpop]

theorem exec_ret_of_empty {s : State} (hpop : s.pop = none) :
    exec .ret s = .fault (.stackUnderflow s.pc (encode .ret)) := by
  show execRet s = _
  rw [execRet, hpop, raise_eq]

theorem exec_call_of_push {s t : State} (nnn : Addr12) (hpush : s.pushPc = some t) :
    exec (.call nnn) s = .next (t.jumpTo (addrOf nnn)) := by
  show execCall nnn s = _
  rw [execCall, hpush]

theorem exec_call_of_full {s : State} (nnn : Addr12) (hpush : s.pushPc = none) :
    exec (.call nnn) s = .fault (.stackOverflow s.pc (encode (.call nnn))) := by
  show execCall nnn s = _
  rw [execCall, hpush, stackOverflowPolicy_eq]

/-- A keypad skip is a skip on the key named, or the fault for no key. -/
theorem skipOnKey_cases (x : Reg) (word : Word) (cond : Bool → Bool) (s : State) :
    (∃ k : Fin 16, (s.reg x).toNat = k.val ∧ skipOnKey x word cond s = .next (s.skipIf (cond (s.keyDown k)))) ∨
    (15 < (s.reg x).toNat ∧ skipOnKey x word cond s = .fault (.keyIndexOutOfRange s.pc word (s.reg x))) := by
  rcases keyOf_cases (s.reg x) with ⟨k, hk, hkey⟩ | ⟨hk, hkey⟩
  · exact .inl ⟨k, hk, by rw [skipOnKey, hkey]⟩
  · exact .inr ⟨hk, by rw [skipOnKey, hkey, raise_eq]⟩

theorem exec_skipKeyDown (x : Reg) (s : State) :
    exec (.skipKeyDown x) s = skipOnKey x (encode (.skipKeyDown x)) (fun down => down) s := rfl

theorem exec_skipKeyUp (x : Reg) (s : State) :
    exec (.skipKeyUp x) s = skipOnKey x (encode (.skipKeyUp x)) (fun down => !down) s := rfl

theorem exec_waitKey_of_none {s : State} (x : Reg) (hkey : s.firstKey = none) : exec (.waitKey x) s = .next s := by
  show execWaitKey x s = _
  rw [execWaitKey, hkey]

theorem exec_waitKey_of_some {s : State} {k : Fin 16} (x : Reg) (hkey : s.firstKey = some k) :
    exec (.waitKey x) s = .next ((s.setReg x (BitVec.ofNat 8 k.val)).setKeyCell k false).advance := by
  show execWaitKey x s = _
  rw [execWaitKey, hkey]

/-! ## Completion -/

/-- The fault of an instruction whose condition does not hold (60_exceptions.md R122, R130: range before font). -/
def faultOf (s : State) : Instr → Fault
  | .call nnn => .stackOverflow s.pc (encode (.call nnn))
  | .ret => .stackUnderflow s.pc (encode .ret)
  | .storeRegs x =>
    if pastMemory s (x.val + 1) then .memOutOfRange s.pc (encode (.storeRegs x)) s.i
    else .fontWrite s.pc (encode (.storeRegs x)) s.i
  | .storeBCD x =>
    if pastMemory s 3 then .memOutOfRange s.pc (encode (.storeBCD x)) s.i
    else .fontWrite s.pc (encode (.storeBCD x)) s.i
  | .skipKeyDown x => .keyIndexOutOfRange s.pc (encode (.skipKeyDown x)) (s.reg x)
  | .skipKeyUp x => .keyIndexOutOfRange s.pc (encode (.skipKeyUp x)) (s.reg x)
  | i => .memOutOfRange s.pc (encode i) s.i

/-- Either what `p` asks holds and the outcome is a next state, or it does not and the outcome is the fault `f`. -/
def NextOrFault (p : Prop) (f : Fault) (o : Outcome) : Prop := (p ∧ ∃ t, o = .next t) ∨ (¬ p ∧ o = .fault f)

theorem nextOrFault_withReadable (s : State) (word : Word) (n : Nat) (t : State) :
    NextOrFault (Readable s n) (.memOutOfRange s.pc word s.i) (withReadable s word n (.next t)) := by
  rcases withReadable_cases s word n (.next t) with ⟨h, heq⟩ | ⟨h, heq⟩
  · exact .inl ⟨h, t, heq⟩
  · exact .inr ⟨h, heq⟩

theorem nextOrFault_withWritable (s : State) (word : Word) (n : Nat) (t : State) :
    NextOrFault (Writable s n)
      (if pastMemory s n then .memOutOfRange s.pc word s.i else .fontWrite s.pc word s.i)
      (withWritable s word n (.next t)) := by
  rcases withWritable_cases s word n (.next t) with ⟨h, heq⟩ | ⟨h, heq⟩ | ⟨hread, h, heq⟩
  · exact .inl ⟨h, t, heq⟩
  · exact .inr ⟨fun hw => h hw.1, by rwa [if_pos ((pastMemory_eq_true_iff s n).mpr h)]⟩
  · exact .inr ⟨h, by rwa [(pastMemory_eq_false_iff s n).mpr hread]⟩

theorem nextOrFault_skipOnKey (x : Reg) (word : Word) (cond : Bool → Bool) (s : State) :
    NextOrFault ((s.reg x).toNat ≤ 15) (.keyIndexOutOfRange s.pc word (s.reg x)) (skipOnKey x word cond s) := by
  rcases skipOnKey_cases x word cond s with ⟨k, hk, heq⟩ | ⟨hk, heq⟩
  · exact .inl ⟨by omega, _, heq⟩
  · exact .inr ⟨by omega, heq⟩

/-- Everything an instruction can answer: permitted, a next state; else its one fault. -/
theorem exec_nextOrFault (i : Instr) (s : State) : NextOrFault (Permitted i s) (faultOf s i) (exec i s) := by
  cases i with
  | draw => exact nextOrFault_withReadable s _ _ _
  | loadRegs => exact nextOrFault_withReadable s _ _ _
  | storeRegs => exact nextOrFault_withWritable s _ _ _
  | storeBCD => exact nextOrFault_withWritable s _ _ _
  | skipKeyDown x => exact nextOrFault_skipOnKey x _ (fun down => down) s
  | skipKeyUp x => exact nextOrFault_skipOnKey x _ (fun down => !down) s
  | call nnn =>
    rcases pushPc_cases s with ⟨hsp, hpush⟩ | ⟨t, hpush, hsp, -⟩
    · exact .inr ⟨fun hne => hne hsp, exec_call_of_full nnn hpush⟩
    · exact .inl ⟨by unfold Permitted; omega, _, exec_call_of_push nnn hpush⟩
  | ret =>
    rcases pop_cases s with ⟨hsp, hpop⟩ | ⟨k, q, hsp, -, hpop⟩
    · exact .inr ⟨fun hne => hne hsp, exec_ret_of_empty hpop⟩
    · exact .inl ⟨by unfold Permitted; omega, _, exec_ret_of_pop hpop⟩
  | waitKey x =>
    cases hkey : s.firstKey with
    | none => exact .inl ⟨trivial, _, exec_waitKey_of_none x hkey⟩
    | some k => exact .inl ⟨trivial, _, exec_waitKey_of_some x hkey⟩
  | _ => exact .inl ⟨trivial, _, rfl⟩

theorem exec_ne_refused (i : Instr) (s : State) (r : Refusal) : exec i s ≠ .refused r := by
  rcases exec_nextOrFault i s with ⟨-, t, h⟩ | ⟨-, h⟩ <;> rw [h] <;> nofun

theorem exec_eq_next_iff_permitted (i : Instr) (s : State) : (∃ t, exec i s = .next t) ↔ Permitted i s := by
  rcases exec_nextOrFault i s with ⟨hp, hnext⟩ | ⟨hp, hfault⟩
  · exact iff_of_true hnext hp
  · refine iff_of_false ?_ hp
    rintro ⟨t, hnext⟩
    exact nomatch hfault.symm.trans hnext

theorem exec_eq_fault_iff {i : Instr} {s : State} {f : Fault} :
    exec i s = .fault f ↔ ¬ Permitted i s ∧ f = faultOf s i := by
  rcases exec_nextOrFault i s with ⟨hp, t, hnext⟩ | ⟨hp, hfault⟩
  · rw [hnext]
    exact iff_of_false nofun fun h => h.1 hp
  · rw [hfault]
    exact ⟨fun h => ⟨hp, (Host.Outcome.fault.inj h).symm⟩, fun h => congrArg _ h.2.symm⟩

/-- Settles O53: an instruction that is not permitted answers its fault, which is no next state. -/
theorem completesExactlyWhenPermitted : Obligations.CompletesExactlyWhenPermitted := by
  unfold Obligations.CompletesExactlyWhenPermitted
  exact exec_eq_next_iff_permitted

/-! ## The faults of an access through `I` -/

theorem withReadable_eq_fault_iff (s : State) (word : Word) (n : Nat) (t : State) :
    withReadable s word n (.next t) = .fault (.memOutOfRange s.pc word s.i) ↔ ¬ Readable s n := by
  by_cases h : Readable s n
  · simp [withReadable_of_readable h, h]
  · simp [withReadable_of_not_readable h, h]

theorem withWritable_eq_memOutOfRange_iff (s : State) (word : Word) (n : Nat) (t : State) :
    withWritable s word n (.next t) = .fault (.memOutOfRange s.pc word s.i) ↔ ¬ Readable s n := by
  rcases withWritable_cases s word n (.next t) with ⟨h, heq⟩ | ⟨h, heq⟩ | ⟨hread, -, heq⟩
  · simp [heq, h.1]
  · simp [heq, h]
  · simp [heq, hread]

theorem withWritable_eq_fontWrite_iff (s : State) (word : Word) (n : Nat) (t : State) :
    withWritable s word n (.next t) = .fault (.fontWrite s.pc word s.i) ↔ Readable s n ∧ ¬ Writable s n := by
  rcases withWritable_cases s word n (.next t) with ⟨h, heq⟩ | ⟨h, heq⟩ | ⟨hread, h, heq⟩
  · simp [heq, h]
  · simp [heq, h]
  · simp [heq, hread, h]

/-- Settles O39: each of the four is one guarded access. -/
theorem indexAccessFaults : Obligations.IndexAccessFaults := by
  unfold Obligations.IndexAccessFaults
  exact fun x y n s =>
    ⟨withReadable_eq_fault_iff s _ _ _, withReadable_eq_fault_iff s _ _ _,
      withWritable_eq_memOutOfRange_iff s _ _ _, withWritable_eq_fontWrite_iff s _ _ _,
      withWritable_eq_memOutOfRange_iff s _ _ _, withWritable_eq_fontWrite_iff s _ _ _⟩

end Sys2Proof.Proofs
end

section
/-! Frames: a state that differs from another in the listed elements only, shown field by field; and how what an
instruction completes with is used. -/

namespace Sys2Proof.Proofs

open Sys2Proof.Machine Sys2Proof.Safety Sys2Proof.Laws

/-- The field of the element is the same in both states: for memory the same list of cells, not only the same bytes. -/
def FieldSame : Part → State → State → Prop
  | .v, s, t => t.v = s.v
  | .i, s, t => t.i = s.i
  | .pc, s, t => t.pc = s.pc
  | .stack, s, t => t.stack = s.stack
  | .sp, s, t => t.sp = s.sp
  | .dt, s, t => t.dt = s.dt
  | .st, s, t => t.st = s.st
  | .key, s, t => t.key = s.key
  | .fb, s, t => t.fb = s.fb
  | .drawFlag, s, t => t.drawFlag = s.drawFlag
  | .mem, s, t => t.mem = s.mem
  | .rndCount, s, t => t.rndCount = s.rndCount

/-- From `s` to `t` no field changes but, possibly, those of the listed elements. -/
def KeepsAllBut (parts : List Part) (s t : State) : Prop := ∀ p, p ∉ parts → FieldSame p s t

/-- On states made by the named updates, the field lemmas of Laws/State.lean show every field that is not listed; the
list may be an instruction's `writes`. -/
theorem keepsAllBut_of_fields {parts : List Part} {s t : State}
    (hv : .v ∉ parts → t.v = s.v := by simp [writes])
    (hi : .i ∉ parts → t.i = s.i := by simp [writes])
    (hpc : .pc ∉ parts → t.pc = s.pc := by simp [writes])
    (hstack : .stack ∉ parts → t.stack = s.stack := by simp [writes])
    (hsp : .sp ∉ parts → t.sp = s.sp := by simp [writes])
    (hdt : .dt ∉ parts → t.dt = s.dt := by simp [writes])
    (hst : .st ∉ parts → t.st = s.st := by simp [writes])
    (hkey : .key ∉ parts → t.key = s.key := by simp [writes])
    (hfb : .fb ∉ parts → t.fb = s.fb := by simp [writes])
    (hdraw : .drawFlag ∉ parts → t.drawFlag = s.drawFlag := by simp [writes])
    (hmem : .mem ∉ parts → t.mem = s.mem := by simp [writes])
    (hrnd : .rndCount ∉ parts → t.rndCount = s.rndCount := by simp [writes]) :
    KeepsAllBut parts s t := by
  intro p hp
  cases p with
  | v => exact hv hp
  | i => exact hi hp
  | pc => exact hpc hp
  | stack => exact hstack hp
  | sp => exact hsp hp
  | dt => exact hdt hp
  | st => exact hst hp
  | key => exact hkey hp
  | fb => exact hfb hp
  | drawFlag => exact hdraw hp
  | mem => exact hmem hp
  | rndCount => exact hrnd hp

/-- Equal fields read the same. -/
theorem same_of_fieldSame {p : Part} {s t : State} (h : FieldSame p s t) : p.Same s t := by
  cases p with
  | v => exact fun r => congrArg (fun v : Vector Byte 16 => v[r.val]) h
  | stack => exact fun k => congrArg (fun stack : Vector Word 16 => stack[k.val]) h
  | key => exact fun k => congrArg (fun key : Vector Bool 16 => key[k.val]) h
  | fb => exact fun x y => congrArg (Framebuffer.pixel · x y) h
  | mem => exact fun a => congrArg (Memory.read · a) h
  | i | pc | sp | dt | st | drawFlag | rndCount => exact h

theorem onlyWrites_of_keeps {parts : List Part} {s t : State} (h : KeepsAllBut parts s t) : OnlyWrites parts s t :=
  fun p hp => same_of_fieldSame (h p hp)

theorem onlyRegs_of_v_eq {rs : List Reg} {s t : State} (h : t.v = s.v) : OnlyRegs rs s t := by
  intro r _
  rw [reg_def, reg_def, h]

theorem onlyRegs_mono {rs qs : List Reg} {s t : State} (h : OnlyRegs rs s t) (hsub : rs ⊆ qs) : OnlyRegs qs s t :=
  fun r hr => h r fun hmem => hr (hsub hmem)

section
variable {i : Instr} {s t : State} {P Q : State → Prop}

theorem completes_mono (h : Completes i s P) (himp : ∀ t, P t → Q t) : Completes i s Q := by
  obtain ⟨t, hexec, hP⟩ := h
  exact ⟨t, hexec, himp t hP⟩

/-- An instruction answers one state, so what it completes with holds of any next state it answers. -/
theorem of_completes_of_exec_eq (h : Completes i s P) (hexec : exec i s = .next t) : P t := by
  obtain ⟨u, hu, hP⟩ := h
  cases hu.symm.trans hexec
  exact hP

end

end Sys2Proof.Proofs
end

section
/-! The other control transfers (41_flow.md R76, R78, R79): JumpOffset, Call, Return, and Return after Call. -/

namespace Sys2Proof.Proofs

open Sys2Proof.Machine Sys2Proof.Safety Sys2Proof.Laws

@[simp] theorem toNat_zext (b : Byte) : (zext b).toNat = b.toNat := BitVec.toNat_setWidth_of_le (by decide)

theorem toNat_addrOf_add_zext (nnn : Addr12) (b : Byte) : (addrOf nnn + zext b).toNat = nnn.toNat + b.toNat := by
  have hnnn := nnn.isLt
  have hb := b.isLt
  rw [BitVec.toNat_add, toNat_addrOf, toNat_zext]
  omega

theorem exec_jumpOffset (nnn : Addr12) (s : State) :
    exec (.jumpOffset nnn) s = .next (s.jumpTo (addrOf nnn + zext (s.reg 0))) := rfl

/-- Settles O22: twelve bits and a byte add up without a wrap of 16 bits. -/
theorem jumpOffsetAddsV0 : Obligations.JumpOffsetAddsV0 := by
  unfold Obligations.JumpOffsetAddsV0
  exact fun nnn s => ⟨_, exec_jumpOffset nnn s, toNat_addrOf_add_zext nnn (s.reg 0), jumpTo_onlyWrites s _⟩

/-! ## Call and Return -/

theorem exec_call_of_lt {s : State} (nnn : Addr12) (hsp : s.sp.val < 16) :
    ∃ (stack : Vector Word 16) (sp : Fin 17),
      exec (.call nnn) s = .next ({ s with stack := stack, sp := sp }.jumpTo (addrOf nnn)) ∧
      sp.val = s.sp.val + 1 ∧
      ∀ k : Fin 16, stack[k.val] = if k.val = s.sp.val then s.pc else s.stack[k.val] := by
  rcases pushPc_cases s with ⟨hfull, -⟩ | ⟨t, hpush, -, hdepth, hslots, ht⟩
  · omega
  · exact ⟨t.stack, t.sp, ht ▸ exec_call_of_push nnn hpush, hdepth, hslots⟩

theorem exec_ret_of_succ {s : State} {k : Fin 16} (hsp : s.sp.val = k.val + 1) :
    ∃ q : Fin 17, exec .ret s = .next ({ s with sp := q }.jumpTo (s.stack[k.val] + 2)) ∧ q.val = k.val := by
  rcases pop_cases s with ⟨hempty, -⟩ | ⟨j, q, hdepth, hq, hpop⟩
  · omega
  · obtain rfl : j = k := Fin.ext (by omega)
    exact ⟨q, exec_ret_of_pop hpop, hq⟩

/-- Settles O23: below depth 16 the push and the jump, at depth 16 the fault of a call that is not permitted. -/
theorem callStacksItsOwnAddress : Obligations.CallStacksItsOwnAddress := by
  unfold Obligations.CallStacksItsOwnAddress
  refine fun nnn s => ⟨fun hsp => ?_, fun hsp => exec_eq_fault_iff.mpr ⟨fun hne => hne hsp, rfl⟩⟩
  obtain ⟨stack, sp, hexec, hdepth, hslots⟩ := exec_call_of_lt nnn hsp
  exact ⟨_, hexec, toNat_addrOf nnn, hdepth, hslots, onlyWrites_of_keeps keepsAllBut_of_fields⟩

/-- Settles O24: on a stack of depth `k + 1` the pop and the jump, at depth 0 the fault of a return that is not
permitted. -/
theorem returnGoesPastTheCall : Obligations.ReturnGoesPastTheCall := by
  unfold Obligations.ReturnGoesPastTheCall
  refine fun s => ⟨fun k hsp => ?_, fun hsp => exec_eq_fault_iff.mpr ⟨fun hne => hne hsp, rfl⟩⟩
  obtain ⟨q, hexec, hq⟩ := exec_ret_of_succ hsp
  exact ⟨_, hexec, rfl, hq, onlyWrites_of_keeps keepsAllBut_of_fields⟩

theorem sp_lt_of_exec_call {nnn : Addr12} {s t : State} (hexec : exec (.call nnn) s = .next t) : s.sp.val < 16 := by
  have hne : s.sp.val ≠ 16 := (exec_eq_next_iff_permitted _ s).mp ⟨t, hexec⟩
  have hlt : s.sp.val < 17 := s.sp.isLt
  omega

/-- Settles O25: the Call fills the slot that the Return pops. -/
theorem callThenReturnComesBack : Obligations.CallThenReturnComesBack := by
  unfold Obligations.CallThenReturnComesBack
  intro nnn s t u hcall husp hustack
  have hsp := sp_lt_of_exec_call hcall
  obtain ⟨-, htsp, htstack, -⟩ := of_completes_of_exec_eq ((callStacksItsOwnAddress nnn s).1 hsp) hcall
  have hdepth : u.sp.val = (⟨s.sp.val, hsp⟩ : Fin 16).val + 1 := by rw [husp, htsp]
  refine completes_mono ((returnGoesPastTheCall u).1 _ hdepth) fun r ⟨hpc, hrsp, hframe⟩ => ⟨?_, Fin.ext hrsp, hframe⟩
  have hslot := htstack ⟨s.sp.val, hsp⟩
  rw [if_pos rfl] at hslot
  rw [hpc, hustack, hslot]

end Sys2Proof.Proofs
end

section
/-! Arithmetic with a flag (43_alu.md R85, R92 to R97): what writing the flag first and the result second does, the
flags and results as numbers, and the five instructions. -/

namespace Sys2Proof.Proofs

open Sys2Proof.Machine Sys2Proof.Safety Sys2Proof.Laws

/-! ## The flag, then the result -/

/-- The result is computed in the state that the flag write left; it replaces the flag when VF is its destination. -/
theorem completes_flagThenResult {i : Instr} {s : State} {x : Reg} {flag : Byte} {result : State → Byte}
    (hexec : exec i s = flagThenResult flag x result s) : Completes i s fun t =>
      t.reg x = result (s.setReg regVF flag) ∧ (x ≠ regVF → t.reg regVF = flag) ∧ t.pc = s.pc + 2 ∧
      OnlyRegs [x, regVF] s t ∧ OnlyWrites [.v, .pc] s t := by
  refine ⟨_, hexec, ?_, fun hx => ?_, rfl, fun r hr => ?_, onlyWrites_of_keeps keepsAllBut_of_fields⟩
  · simp
  · simp [Ne.symm hx]
  · simp only [List.mem_cons, List.not_mem_nil, or_false, not_or] at hr
    simp [hr]

theorem exec_addC (x y : Reg) (s : State) : exec (.addC x y) s =
    flagThenResult (carryFlag (s.reg x) (s.reg y)) x (fun _ => s.reg x + s.reg y) s := rfl

theorem exec_subB (x y : Reg) (s : State) : exec (.subB x y) s =
    flagThenResult (noBorrowFlag (s.reg x) (s.reg y)) x (fun t => t.reg x - t.reg y) s := rfl

theorem exec_subBRev (x y : Reg) (s : State) : exec (.subBRev x y) s =
    flagThenResult (noBorrowFlag (s.reg y) (s.reg x)) x (fun t => t.reg y - t.reg x) s := rfl

theorem exec_shr (x y : Reg) (s : State) : exec (.shr x y) s =
    flagThenResult (shrFlag (s.reg x)) x (fun t => t.reg x >>> 1) s := rfl

theorem exec_shl (x y : Reg) (s : State) : exec (.shl x y) s =
    flagThenResult (shlFlag (s.reg x)) x (fun t => t.reg x <<< 1) s := rfl

/-! ## Flags and results as numbers -/

theorem carryFlag_eq (a b : Byte) : carryFlag a b = if a.toNat + b.toNat > 255 then 1 else 0 := by
  simp [carryFlag, flagByte]

theorem toNat_carryFlag (a b : Byte) : (carryFlag a b).toNat = (a.toNat + b.toNat) / 256 := by
  have ha := a.isLt
  have hb := b.isLt
  rw [carryFlag_eq]
  split_ifs
  · show 1 = _; omega
  · show 0 = _; omega

theorem toNat_noBorrowFlag (a b : Byte) : (noBorrowFlag a b).toNat = noBorrow a b := by
  by_cases h : b.toNat ≤ a.toNat <;> simp [noBorrowFlag, flagByte, noBorrow, h]

theorem toNat_shrFlag (a : Byte) : (shrFlag a).toNat = a.toNat % 2 :=
  Nat.and_two_pow_sub_one_eq_mod a.toNat 1

theorem toNat_shlFlag (a : Byte) : (shlFlag a).toNat = a.toNat / 128 := by
  revert a
  decide

theorem toNat_sub_byte (a b : Byte) : (a - b).toNat = (256 + a.toNat - b.toNat) % 256 := by
  have hb := b.isLt
  rw [BitVec.toNat_sub]
  omega

theorem toNat_shl_byte (a : Byte) : (a <<< 1).toNat = 2 * a.toNat % 256 := by
  rw [BitVec.toNat_shiftLeft, Nat.shiftLeft_eq, Nat.mul_comm]

theorem toNat_shr_byte (a : Byte) : (a >>> 1).toNat = a.toNat / 2 := by
  rw [BitVec.toNat_ushiftRight, Nat.shiftRight_eq_div_pow]

/-! ## The instructions -/

/-- Settles O29: the sum reads both operands before the carry is written. -/
theorem addCGivesSumAndCarry : Obligations.AddCGivesSumAndCarry := by
  unfold Obligations.AddCGivesSumAndCarry
  refine fun x y s => completes_mono (completes_flagThenResult (exec_addC x y s)) ?_
  rintro t ⟨hresult, hflag, hrest⟩
  exact ⟨by rw [hresult, BitVec.toNat_add], fun hx => by rw [hflag hx, carryFlag_eq], hrest⟩

/-- What SubB and SubBRev do for all operands: a minuend and a subtrahend, of which VF has already been written. -/
theorem completes_difference {i : Instr} {s : State} {x a b : Reg}
    (hexec : exec i s = flagThenResult (noBorrowFlag (s.reg a) (s.reg b)) x (fun t => t.reg a - t.reg b) s) :
    Completes i s fun t =>
      (t.reg x).toNat = (256 + ((s.setReg regVF (noBorrowFlag (s.reg a) (s.reg b))).reg a).toNat -
        ((s.setReg regVF (noBorrowFlag (s.reg a) (s.reg b))).reg b).toNat) % 256 ∧
      (x ≠ regVF → (t.reg regVF).toNat = noBorrow (s.reg a) (s.reg b)) ∧
      t.pc = s.pc + 2 ∧ OnlyRegs [x, regVF] s t ∧ OnlyWrites [.v, .pc] s t := by
  refine completes_mono (completes_flagThenResult hexec) ?_
  rintro t ⟨hresult, hflag, hrest⟩
  exact ⟨by rw [hresult, toNat_sub_byte], fun hx => by rw [hflag hx, toNat_noBorrowFlag], hrest⟩

/-- What Shr does for all operands: VF, where it is shifted, has already been written. -/
theorem completes_shr (x y : Reg) (s : State) : Completes (.shr x y) s fun t =>
    (t.reg x).toNat = ((s.setReg regVF (shrFlag (s.reg x))).reg x).toNat / 2 ∧
    (x ≠ regVF → (t.reg regVF).toNat = (s.reg x).toNat % 2) ∧
    t.pc = s.pc + 2 ∧ OnlyRegs [x, regVF] s t ∧ OnlyWrites [.v, .pc] s t := by
  refine completes_mono (completes_flagThenResult (exec_shr x y s)) ?_
  rintro t ⟨hresult, hflag, hrest⟩
  exact ⟨by rw [hresult, toNat_shr_byte], fun hx => by rw [hflag hx, toNat_shrFlag], hrest⟩

/-- What Shl does for all operands: VF, where it is shifted, has already been written. -/
theorem completes_shl (x y : Reg) (s : State) : Completes (.shl x y) s fun t =>
    (t.reg x).toNat = 2 * ((s.setReg regVF (shlFlag (s.reg x))).reg x).toNat % 256 ∧
    (x ≠ regVF → (t.reg regVF).toNat = (s.reg x).toNat / 128) ∧
    t.pc = s.pc + 2 ∧ OnlyRegs [x, regVF] s t ∧ OnlyWrites [.v, .pc] s t := by
  refine completes_mono (completes_flagThenResult (exec_shl x y s)) ?_
  rintro t ⟨hresult, hflag, hrest⟩
  exact ⟨by rw [hresult, toNat_shl_byte], fun hx => by rw [hflag hx, toNat_shlFlag], hrest⟩

/-- Settles O30: an operand other than VF reads the same after the flag write. -/
theorem subtractionsGiveDifferenceAndNoBorrow : Obligations.SubtractionsGiveDifferenceAndNoBorrow := by
  unfold Obligations.SubtractionsGiveDifferenceAndNoBorrow
  intro x y s hx hy
  have hsub := completes_difference (exec_subB x y s)
  have hrev := completes_difference (exec_subBRev x y s)
  simp only [reg_setReg, if_neg hx, if_neg hy] at hsub hrev
  exact ⟨completes_mono hsub fun t ⟨hresult, hflag, hrest⟩ => ⟨hresult, hflag hx, hrest⟩,
    completes_mono hrev fun t ⟨hresult, hflag, hrest⟩ => ⟨hresult, hflag hx, hrest⟩⟩

/-- Settles O31: an operand other than VF reads the same after the flag write. -/
theorem shiftsMoveOneBit : Obligations.ShiftsMoveOneBit := by
  unfold Obligations.ShiftsMoveOneBit
  intro x y s hx
  have hshr := completes_shr x y s
  have hshl := completes_shl x y s
  simp only [reg_setReg, if_neg hx] at hshr hshl
  exact ⟨completes_mono hshr fun t ⟨hresult, hflag, hrest⟩ => ⟨hresult, hflag hx, hrest⟩,
    completes_mono hshl fun t ⟨hresult, hflag, hrest⟩ => ⟨hresult, hflag hx, hrest⟩⟩

/-! ## VF as an operand (43_alu.md R97) -/

theorem toNat_reg_setReg_noBorrow (s : State) (a b : Byte) :
    ((s.setReg regVF (noBorrowFlag a b)).reg regVF).toNat = noBorrow a b := by
  rw [reg_setReg, if_pos rfl, toNat_noBorrowFlag]

theorem reg_setReg_of_ne (s : State) {r q : Reg} (b : Byte) (h : q ≠ r) : (s.setReg r b).reg q = s.reg q := by
  rw [reg_setReg, if_neg h]

section
variable {i : Instr} {s : State} {x a b : Reg} {result flag : Nat}

/-- With VF as the destination the result stands in VF, and no other register changes. -/
theorem completes_to_regVF {P : Byte → Prop} {flagged : State → Prop} (h : Completes i s fun t =>
      P (t.reg regVF) ∧ flagged t ∧ t.pc = s.pc + 2 ∧ OnlyRegs [regVF, regVF] s t ∧ OnlyWrites [.v, .pc] s t) :
    Completes i s fun t => P (t.reg regVF) ∧ t.pc = s.pc + 2 ∧ OnlyRegs [regVF] s t ∧ OnlyWrites [.v, .pc] s t :=
  completes_mono h fun _ ⟨hresult, _, hpc, hregs, hframe⟩ => ⟨hresult, hpc, onlyRegs_mono hregs (by simp), hframe⟩

/-- With another destination VF keeps the flag. -/
theorem completes_keeping_flag (hx : x ≠ regVF) (h : Completes i s fun t =>
      (t.reg x).toNat = result ∧ (x ≠ regVF → (t.reg regVF).toNat = flag) ∧ t.pc = s.pc + 2 ∧
      OnlyRegs [x, regVF] s t ∧ OnlyWrites [.v, .pc] s t) :
    Completes i s fun t => (t.reg regVF).toNat = flag ∧ (t.reg x).toNat = result ∧ t.pc = s.pc + 2 ∧
      OnlyRegs [x, regVF] s t ∧ OnlyWrites [.v, .pc] s t :=
  completes_mono h fun _ ⟨hresult, hflag, hrest⟩ => ⟨hflag hx, hresult, hrest⟩

theorem completes_difference_minuend_VF (hb : b ≠ regVF)
    (hexec : exec i s = flagThenResult (noBorrowFlag (s.reg regVF) (s.reg b)) x (fun t => t.reg regVF - t.reg b) s) :
    Completes i s fun t =>
      (t.reg x).toNat = (256 + noBorrow (s.reg regVF) (s.reg b) - (s.reg b).toNat) % 256 ∧
      (x ≠ regVF → (t.reg regVF).toNat = noBorrow (s.reg regVF) (s.reg b)) ∧
      t.pc = s.pc + 2 ∧ OnlyRegs [x, regVF] s t ∧ OnlyWrites [.v, .pc] s t := by
  have h := completes_difference hexec
  rwa [toNat_reg_setReg_noBorrow, reg_setReg_of_ne s _ hb] at h

theorem completes_difference_subtrahend_VF (ha : a ≠ regVF)
    (hexec : exec i s = flagThenResult (noBorrowFlag (s.reg a) (s.reg regVF)) x (fun t => t.reg a - t.reg regVF) s) :
    Completes i s fun t =>
      (t.reg x).toNat = (256 + (s.reg a).toNat - noBorrow (s.reg a) (s.reg regVF)) % 256 ∧
      (x ≠ regVF → (t.reg regVF).toNat = noBorrow (s.reg a) (s.reg regVF)) ∧
      t.pc = s.pc + 2 ∧ OnlyRegs [x, regVF] s t ∧ OnlyWrites [.v, .pc] s t := by
  have h := completes_difference hexec
  rwa [toNat_reg_setReg_noBorrow, reg_setReg_of_ne s _ ha] at h

/-- The flag less itself. -/
theorem completes_difference_both_VF (hexec : exec i s =
      flagThenResult (noBorrowFlag (s.reg regVF) (s.reg regVF)) regVF (fun t => t.reg regVF - t.reg regVF) s) :
    Completes i s fun t =>
      t.reg regVF = 0 ∧ t.pc = s.pc + 2 ∧ OnlyRegs [regVF] s t ∧ OnlyWrites [.v, .pc] s t := by
  have h := completes_difference hexec
  rw [Nat.add_sub_cancel] at h
  exact completes_to_regVF (P := (· = 0))
    (completes_mono h fun _ ⟨hresult, hrest⟩ => ⟨BitVec.eq_of_toNat_eq hresult, hrest⟩)

end

theorem addC_flagOperand (x y : Reg) (s : State) (hx : x ≠ regVF) :
    (Completes (.addC regVF y) s fun t =>
      (t.reg regVF).toNat = ((s.reg regVF).toNat + (s.reg y).toNat) % 256) ∧
    (Completes (.addC x regVF) s fun t =>
      (t.reg x).toNat = ((s.reg x).toNat + (s.reg regVF).toNat) % 256 ∧
      (t.reg regVF).toNat = ((s.reg x).toNat + (s.reg regVF).toNat) / 256) ∧
    (Completes (.addC regVF regVF) s fun t => (t.reg regVF).toNat = 2 * (s.reg regVF).toNat % 256) := by
  refine ⟨completes_mono (addCGivesSumAndCarry regVF y s) fun t h => h.1, ?_, ?_⟩
  · refine completes_mono (completes_flagThenResult (exec_addC x regVF s)) ?_
    rintro t ⟨hresult, hflag, -⟩
    exact ⟨by rw [hresult, BitVec.toNat_add], by rw [hflag hx, toNat_carryFlag]⟩
  · exact completes_mono (addCGivesSumAndCarry regVF regVF s) fun t h => by rw [h.1, two_mul]

theorem shr_flagOperand (z : Reg) (s : State) : Completes (.shr regVF z) s fun t =>
    t.reg regVF = 0 ∧ t.pc = s.pc + 2 ∧ OnlyRegs [regVF] s t ∧ OnlyWrites [.v, .pc] s t := by
  refine completes_mono (completes_to_regVF (P := (·.toNat = _)) (completes_shr regVF z s)) ?_
  rintro t ⟨hresult, hrest⟩
  rw [reg_setReg, if_pos rfl, toNat_shrFlag] at hresult
  have hzero : (t.reg regVF).toNat = 0 := by omega
  exact ⟨BitVec.eq_of_toNat_eq hzero, hrest⟩

theorem shl_flagOperand (z : Reg) (s : State) : Completes (.shl regVF z) s fun t =>
    (t.reg regVF).toNat = 2 * ((s.reg regVF).toNat / 128) ∧ t.pc = s.pc + 2 ∧ OnlyRegs [regVF] s t ∧
    OnlyWrites [.v, .pc] s t := by
  refine completes_mono (completes_to_regVF (P := (·.toNat = _)) (completes_shl regVF z s)) ?_
  rintro t ⟨hresult, hrest⟩
  rw [reg_setReg, if_pos rfl, toNat_shlFlag] at hresult
  have hlt := (s.reg regVF).isLt
  exact ⟨by omega, hrest⟩

/-- Settles O32: SubB and SubBRev by which of minuend and subtrahend is VF, each with VF or another register as its
destination; the rest read where VF is an operand. -/
theorem flagRegisterAsOperand : Obligations.FlagRegisterAsOperand := by
  unfold Obligations.FlagRegisterAsOperand
  intro x y s hx hy
  obtain ⟨haddFst, haddSnd, haddBoth⟩ := addC_flagOperand x y s hx
  exact ⟨haddFst, haddSnd, haddBoth,
    completes_to_regVF (P := (·.toNat = _)) (completes_difference_minuend_VF hy (exec_subB regVF y s)),
    completes_keeping_flag hx (completes_difference_subtrahend_VF hx (exec_subB x regVF s)),
    completes_difference_both_VF (exec_subB regVF regVF s),
    completes_to_regVF (P := (·.toNat = _)) (completes_difference_subtrahend_VF hy (exec_subBRev regVF y s)),
    completes_keeping_flag hx (completes_difference_minuend_VF hx (exec_subBRev x regVF s)),
    completes_difference_both_VF (exec_subBRev regVF regVF s),
    fun z => shr_flagOperand z s, fun z => shl_flagOperand z s⟩

end Sys2Proof.Proofs
end

section
/-! Index register and memory (44_index_memory.md R102 to R107): AddIndex and LoadFont, the two stores, the load, and
that a load undoes a store. -/

namespace Sys2Proof.Proofs

open Sys2Proof.Machine Sys2Proof.Safety Sys2Proof.Laws

/-! ## Index arithmetic -/

theorem exec_addIndex (x : Reg) (s : State) :
    exec (.addIndex x) s = .next { s with i := s.i + zext (s.reg x) }.advance := rfl

theorem exec_loadFont (x : Reg) (s : State) :
    exec (.loadFont x) s = .next { s with i := glyphAddr (s.reg x) }.advance := rfl

theorem toNat_add_zext (w : Word) (b : Byte) : (w + zext b).toNat = (w.toNat + b.toNat) % 65536 := by
  rw [BitVec.toNat_add, toNat_zext]

theorem toNat_glyphAddr (b : Byte) : (glyphAddr b).toNat = 0x050 + 5 * b.toNat := by
  have hb := b.isLt
  have hbase : fontBase = 0x050 := rfl
  rw [glyphAddr, BitVec.toNat_ofNat]
  omega

/-- Settles O34: both write the index only; five times a byte above the font's base is far below `2 ^ 16`. -/
theorem indexArithmetic : Obligations.IndexArithmetic := by
  unfold Obligations.IndexArithmetic
  exact fun x s =>
    ⟨⟨_, exec_addIndex x s, toNat_add_zext s.i (s.reg x), rfl, advance_index_onlyWrites s _⟩,
      ⟨_, exec_loadFont x s, toNat_glyphAddr (s.reg x), rfl, advance_index_onlyWrites s _⟩⟩

/-! ## Bytes at `I` -/

theorem dataAddr_eq_add (s : State) (k : Nat) : dataAddr s k = dataAddr s 0 + k := rfl

section
variable {s : State} (hwf : s.mem.wf) (bs : List Byte)
include hwf

theorem read_writeAtI_of_lt {k : Nat} (hk : k < bs.length) :
    (s.writeAtI bs).mem.read (dataAddr s 0 + k) = bs.getD k 0 := by
  rw [writeAtI_mem, read_writeBytes hwf, if_pos (by omega), Nat.add_sub_cancel_left]

theorem read_writeAtI_of_not_inRange {a : Nat} (ha : ¬ InRange s bs.length a) :
    (s.writeAtI bs).mem.read a = s.mem.read a := by
  rw [writeAtI_mem, read_writeBytes hwf]
  exact if_neg ha

end

theorem writeAtI_onlyWrites (s : State) (bs : List Byte) : OnlyWrites [.mem, .pc] s (s.writeAtI bs).advance :=
  onlyWrites_of_keeps keepsAllBut_of_fields

/-! ## The stores -/

theorem length_bcdDigits (b : Byte) : (bcdDigits b).length = 3 := rfl

/-- Settles O35: the three digits are quotients and remainders of the value by 100 and 10. -/
theorem storeBCDStoresTheDigits : Obligations.StoreBCDStoresTheDigits := by
  unfold Obligations.StoreBCDStoresTheDigits
  intro x s hwf hwrite
  have hdigit {k : Nat} (hk : k < 3) := read_writeAtI_of_lt hwf (bcdDigits (s.reg x)) hk
  have hlt := (s.reg x).isLt
  refine ⟨_, (exec_storeBCD x s).trans (withWritable_of_writable hwrite), ?_,
    fun a => read_writeAtI_of_not_inRange hwf (bcdDigits (s.reg x)), rfl, writeAtI_onlyWrites s _⟩
  exact ⟨(s.reg x).toNat / 100, (s.reg x).toNat / 10 % 10, (s.reg x).toNat % 10,
    hdigit (k := 0) (by decide), hdigit (k := 1) (by decide), hdigit (k := 2) (by decide),
    by omega, by omega, by omega, by omega⟩

theorem length_take_regs (s : State) (x : Reg) : (s.v.toList.take (x.val + 1)).length = x.val + 1 := by
  have hx := x.isLt
  rw [List.length_take, Vector.length_toList, nregs_eq]
  omega

theorem getD_take_regs (s : State) {x r : Reg} (hr : r ≤ x) :
    (s.v.toList.take (x.val + 1)).getD r.val 0 = s.reg r := by
  have hlt : r.val < x.val + 1 := Nat.lt_succ_of_le hr
  rw [List.getD_eq_getElem _ _ (by rwa [length_take_regs]), List.getElem_take, Vector.getElem_toList]
  rfl

/-- Settles O36: byte `r` of what is stored is register `r`. -/
theorem storeRegsStoresTheRegisters : Obligations.StoreRegsStoresTheRegisters := by
  unfold Obligations.StoreRegsStoresTheRegisters
  intro x s hwf hwrite
  have hlen := length_take_regs s x
  refine ⟨_, (exec_storeRegs x s).trans (withWritable_of_writable hwrite), fun r hr => ?_, fun a ha => ?_, rfl,
    writeAtI_onlyWrites s _⟩
  · have hlt : r.val < x.val + 1 := Nat.lt_succ_of_le hr
    rw [advance_mem, dataAddr_eq_add, read_writeAtI_of_lt hwf _ (by rwa [hlen]), getD_take_regs s hr]
  · rw [advance_mem, read_writeAtI_of_not_inRange hwf _ (by rwa [hlen])]

theorem writable_of_exec_storeRegs {x : Reg} {s t : State} (hexec : exec (.storeRegs x) s = .next t) :
    Writable s (x.val + 1) := (exec_eq_next_iff_permitted (.storeRegs x) s).mp ⟨t, hexec⟩

/-! ## The load -/

/-- Settles O37: byte `r` of what is read goes to register `r`. -/
theorem loadRegsLoadsTheRegisters : Obligations.LoadRegsLoadsTheRegisters := by
  unfold Obligations.LoadRegsLoadsTheRegisters
  intro x s hread
  refine ⟨_, (exec_loadRegs x s).trans (withReadable_of_readable hread), fun r => ?_, rfl,
    onlyWrites_of_keeps keepsAllBut_of_fields⟩
  rw [reg_advance, reg_def, getElem_setRegsFrom, State.readAtI, length_readBytes]
  by_cases hr : r ≤ x
  · have hlt : r.val < x.val + 1 := Nat.lt_succ_of_le hr
    rw [if_pos ⟨Nat.zero_le _, by omega⟩, if_pos hr, Nat.sub_zero, getD_readBytes _ _ hlt]
    rfl
  · have hlt : ¬ r.val < x.val + 1 := fun h => hr (Nat.le_of_lt_succ h)
    rw [if_neg (by omega), if_neg hr, reg_def]

/-- Settles O38: the load reads the bytes that the store wrote. -/
theorem loadRegsUndoesStoreRegs : Obligations.LoadRegsUndoesStoreRegs := by
  unfold Obligations.LoadRegsUndoesStoreRegs
  intro x s t u hwf hstore humem hui
  have hwrite := writable_of_exec_storeRegs hstore
  obtain ⟨hstored, -, -, hframe⟩ := of_completes_of_exec_eq (storeRegsStoresTheRegisters x s hwf hwrite) hstore
  have hi : u.i = s.i := hui.trans (hframe .i (by decide))
  have hread : Readable u (x.val + 1) := by
    unfold Readable
    rw [hi]
    exact hwrite.1
  refine completes_mono (loadRegsLoadsTheRegisters x u hread) fun r ⟨hregs, _⟩ => ⟨fun q hq => ?_, fun q hq => ?_⟩
  · rw [hregs, if_pos hq, humem, dataAddr, hi]
    exact hstored q hq
  · rw [hregs, if_neg hq]

/-- Settles O40: two stored bytes that follow each other are read as one word. -/
theorem storedBytesAreFetchedAtOnce : Obligations.StoredBytesAreFetchedAtOnce := by
  unfold Obligations.StoredBytesAreFetchedAtOnce
  intro x r q s t hwf hstore hq hqr hpc
  have hwrite := writable_of_exec_storeRegs hstore
  obtain ⟨hstored, -⟩ := of_completes_of_exec_eq (storeRegsStoresTheRegisters x s hwf hwrite) hstore
  have hqx : q.val ≤ x.val := hq
  have hr : r ≤ x := Fin.le_def.mpr (by omega)
  have hnext : dataAddr s r.val + 1 = dataAddr s q.val := by rw [hqr]; rfl
  have hin : t.pc.toNat ≤ 0xFFE := by
    have haddr : dataAddr s r.val = s.i.toNat + r.val := rfl
    rcases hwrite.1 with hzero | hend <;> omega
  rw [fetch_of_pc_le hin, hpc, hnext, hstored r hr, hstored q hq]

end Sys2Proof.Proofs
end

section
/-! Random, keypad and display instructions (45_random_keypad_timers.md R111 to R115, 40_display.md R71). -/

namespace Sys2Proof.Proofs

open Sys2Proof.Machine Sys2Proof.Safety Sys2Proof.Laws

theorem advance_setReg_rndDrawn_onlyWrites (s : State) (x : Reg) (b : Byte) :
    OnlyWrites [.v, .pc, .rndCount] s (s.rndDrawn.setReg x b).advance := onlyWrites_of_keeps keepsAllBut_of_fields

/-- Settles O41: the byte of the next draw, masked, whatever it is. -/
theorem randMasksAFreeByte : Obligations.RandMasksAFreeByte := by
  unfold Obligations.RandMasksAFreeByte
  intro x nn s
  have hresult : (s.rndDrawn.setReg x (s.rndByte &&& nn)).advance.reg x = s.rndByte &&& nn := by simp
  refine ⟨_, exec_rand x nn s, hresult, fun hnn => ?_, fun hnn => ?_, rfl, rfl, ?_,
    advance_setReg_rndDrawn_onlyWrites s x _⟩
  · rw [hresult, hnn]; exact BitVec.and_zero
  · rw [hresult, hnn]; exact BitVec.and_allOnes
  · exact advance_setReg_onlyRegs s.rndDrawn x _

/-! ## Keys -/

section
variable {x : Reg} {s : State}

theorem skipOnKey_of_key {k : Fin 16} (word : Word) (cond : Bool → Bool) (hk : (s.reg x).toNat = k.val) :
    skipOnKey x word cond s = .next (s.skipIf (cond (s.keyDown k))) := by
  rcases skipOnKey_cases x word cond s with ⟨j, hj, heq⟩ | ⟨hbig, -⟩
  · rw [heq, Fin.ext (hj.symm.trans hk)]
  · have := k.isLt
    omega

theorem skipOnKey_of_no_key (word : Word) (cond : Bool → Bool) (hbig : 15 < (s.reg x).toNat) :
    skipOnKey x word cond s = .fault (.keyIndexOutOfRange s.pc word (s.reg x)) := by
  rcases skipOnKey_cases x word cond s with ⟨j, hj, -⟩ | ⟨-, heq⟩
  · have := j.isLt
    omega
  · exact heq

end

/-- Settles O42: a skip when the key is pressed, a skip unless it is, and for no key the fault. -/
theorem keypadSkips : Obligations.KeypadSkips := by
  unfold Obligations.KeypadSkips
  refine fun x s => ⟨fun k hk => ⟨?_, ?_⟩, fun hbig => ⟨?_, ?_⟩⟩
  · exact completes_skip_when ((exec_skipKeyDown x s).trans (skipOnKey_of_key _ _ hk)) Iff.rfl
  · exact completes_skip_unless ((exec_skipKeyUp x s).trans (skipOnKey_of_key _ _ hk)) (by simp)
  · exact (exec_skipKeyDown x s).trans (skipOnKey_of_no_key _ _ hbig)
  · exact (exec_skipKeyUp x s).trans (skipOnKey_of_no_key _ _ hbig)

theorem advance_setKeyCell_setReg_onlyWrites (s : State) (x : Reg) (b : Byte) (k : Fin 16) (p : Bool) :
    OnlyWrites [.v, .key, .pc] s ((s.setReg x b).setKeyCell k p).advance := onlyWrites_of_keeps keepsAllBut_of_fields

theorem toNat_ofNat_key (k : Fin 16) : (BitVec.ofNat 8 k.val).toNat = k.val := by
  have hk := k.isLt
  rw [BitVec.toNat_ofNat]
  omega

/-- Settles O44: the scan finds the lowest pressed key, or none. -/
theorem waitKeyReportsTheLowestKey : Obligations.WaitKeyReportsTheLowestKey := by
  unfold Obligations.WaitKeyReportsTheLowestKey
  refine fun x s => ⟨fun k hk hlow => ?_, fun hnone => ?_⟩
  · have hfirst : s.firstKey = some k := (firstKey_eq_some_iff s k).mpr ⟨hk, hlow⟩
    refine ⟨_, exec_waitKey_of_some x hfirst, ?_, fun j => ?_, rfl, fun r hr => ?_,
      advance_setKeyCell_setReg_onlyWrites s x _ k false⟩
    · rw [reg_advance, reg_setKeyCell, reg_setReg, if_pos rfl, toNat_ofNat_key]
    · simp
    · simp [List.ne_of_not_mem_cons hr]
  · exact exec_waitKey_of_none x ((firstKey_eq_none_iff s).mpr hnone)

/-! ## Clear -/

theorem exec_clear (s : State) :
    exec .clear s = .next { s with fb := Framebuffer.blank, drawFlag := true }.advance := rfl

/-- Settles O17: the framebuffer is the blank one, and the flag is set whatever it held. -/
theorem clearBlanksTheScreen : Obligations.ClearBlanksTheScreen := by
  unfold Obligations.ClearBlanksTheScreen
  exact fun s => ⟨_, exec_clear s, pixel_blank, rfl, rfl, onlyWrites_of_keeps keepsAllBut_of_fields⟩

end Sys2Proof.Proofs
end

section
/-! Draw (40_display.md R70, R72). A Draw plots a list of cells, one for each sprite pixel of value 1. Below 32 rows no
cell stands in it twice, so plotting the list toggles exactly its cells, and VF says whether one of them was set. -/

namespace Sys2Proof.Proofs

open Sys2Proof.Machine Sys2Proof.Safety Sys2Proof.Laws

/-! ## Plotting a list of cells -/

/-- A cell of the screen: column and row. -/
abbrev ScreenCell := Fin 64 × Fin 32

/-- The cells plotted one after the other. -/
def plotAll (cells : List ScreenCell) (c : Canvas) : Canvas := cells.foldl (fun c p => c.plot p.1 p.2) c

theorem plotAll_cons (p : ScreenCell) (cells : List ScreenCell) (c : Canvas) :
    plotAll (p :: cells) c = plotAll cells (c.plot p.1 p.2) := rfl

theorem plotAll_append (cells more : List ScreenCell) (c : Canvas) :
    plotAll (cells ++ more) c = plotAll more (plotAll cells c) := List.foldl_append

theorem pixel_plot_of_ne {p q : ScreenCell} (h : q ≠ p) (c : Canvas) :
    Framebuffer.pixel (c.plot p.1 p.2).fb q.1 q.2 = Framebuffer.pixel c.fb q.1 q.2 := by
  rw [(plot_eq c p.1 p.2).1, pixel_toggle, if_neg fun hq => h (Prod.ext hq.1 hq.2)]

theorem pixel_plot_self (p : ScreenCell) (c : Canvas) :
    Framebuffer.pixel (c.plot p.1 p.2).fb p.1 p.2 = !Framebuffer.pixel c.fb p.1 p.2 := by
  rw [(plot_eq c p.1 p.2).1, pixel_toggle, if_pos ⟨rfl, rfl⟩]

theorem pixel_plotAll_of_not_mem {cells : List ScreenCell} {q : ScreenCell} (hq : q ∉ cells) (c : Canvas) :
    Framebuffer.pixel (plotAll cells c).fb q.1 q.2 = Framebuffer.pixel c.fb q.1 q.2 := by
  induction cells generalizing c with
  | nil => rfl
  | cons p cells ih =>
    obtain ⟨hne, hnot⟩ := not_or.mp fun h => hq (List.mem_cons.mpr h)
    rw [plotAll_cons, ih hnot, pixel_plot_of_ne hne]

theorem pixel_plotAll_of_mem {cells : List ScreenCell} (hnodup : cells.Nodup) {q : ScreenCell} (hq : q ∈ cells)
    (c : Canvas) : Framebuffer.pixel (plotAll cells c).fb q.1 q.2 = !Framebuffer.pixel c.fb q.1 q.2 := by
  induction cells generalizing c with
  | nil => exact absurd hq List.not_mem_nil
  | cons p cells ih =>
    obtain ⟨hp, hcells⟩ := List.nodup_cons.mp hnodup
    rw [plotAll_cons]
    rcases List.mem_cons.mp hq with rfl | hmem
    · rw [pixel_plotAll_of_not_mem hp, pixel_plot_self]
    · have hne : q ≠ p := fun h => hp (h ▸ hmem)
      rw [ih hcells hmem, pixel_plot_of_ne hne]

/-- A cell changes exactly when it is plotted. -/
theorem pixel_plotAll_ne_iff {cells : List ScreenCell} (hnodup : cells.Nodup) (q : ScreenCell) (c : Canvas) :
    Framebuffer.pixel (plotAll cells c).fb q.1 q.2 ≠ Framebuffer.pixel c.fb q.1 q.2 ↔ q ∈ cells := by
  by_cases hq : q ∈ cells
  · simp [pixel_plotAll_of_mem hnodup hq, hq]
  · simp [pixel_plotAll_of_not_mem hq, hq]

theorem vf_plotAll_of_vf {c : Canvas} (hvf : c.vf = 1) (cells : List ScreenCell) : (plotAll cells c).vf = 1 := by
  induction cells generalizing c with
  | nil => exact hvf
  | cons p cells ih => exact ih (by rw [(plot_eq c p.1 p.2).2, hvf, ite_self])

theorem vf_plotAll_of_set {cells : List ScreenCell} (hnodup : cells.Nodup) {q : ScreenCell} (hq : q ∈ cells)
    {c : Canvas} (hset : Framebuffer.pixel c.fb q.1 q.2 = true) : (plotAll cells c).vf = 1 := by
  induction cells generalizing c with
  | nil => exact absurd hq List.not_mem_nil
  | cons p cells ih =>
    obtain ⟨hp, hcells⟩ := List.nodup_cons.mp hnodup
    rw [plotAll_cons]
    rcases List.mem_cons.mp hq with rfl | hmem
    · exact vf_plotAll_of_vf (by rw [(plot_eq c q.1 q.2).2, if_pos hset]) cells
    · have hne : q ≠ p := fun h => hp (h ▸ hmem)
      exact ih hcells hmem (by rwa [pixel_plot_of_ne hne])

theorem vf_plotAll_of_clear {cells : List ScreenCell} (hnodup : cells.Nodup) {c : Canvas}
    (hclear : ∀ q ∈ cells, Framebuffer.pixel c.fb q.1 q.2 = false) : (plotAll cells c).vf = c.vf := by
  induction cells generalizing c with
  | nil => rfl
  | cons p cells ih =>
    obtain ⟨hp, hcells⟩ := List.nodup_cons.mp hnodup
    have hrest : ∀ q ∈ cells, Framebuffer.pixel (c.plot p.1 p.2).fb q.1 q.2 = false := fun q hq => by
      have hne : q ≠ p := fun h => hp (h ▸ hq)
      rw [pixel_plot_of_ne hne, hclear q (List.mem_cons_of_mem p hq)]
    rw [plotAll_cons, ih hcells hrest, (plot_eq c p.1 p.2).2, hclear p List.mem_cons_self]
    rfl

/-! ## The cells of a sprite -/

/-- The cells that the pixels of value 1 of one sprite byte fall on, wrapped. -/
def rowCells (b : Byte) (x0 y0 : Nat) : List ScreenCell :=
  ((List.range 8).filter (spritePixel b)).map fun col => (Fin.ofNat 64 (x0 + col), Fin.ofNat 32 y0)

/-- The cells that the pixels of value 1 of a sprite fall on, wrapped. -/
def spriteCells : List Byte → Nat → Nat → List ScreenCell
  | [], _, _ => []
  | b :: bs, x0, y0 => rowCells b x0 y0 ++ spriteCells bs x0 (y0 + 1)

theorem drawByte_eq_plotAll (c : Canvas) (b : Byte) (x0 y0 : Nat) :
    c.drawByte b x0 y0 = plotAll (rowCells b x0 y0) c := by
  rw [plotAll, rowCells, List.foldl_map, List.foldl_filter]
  rfl

theorem drawRows_eq_plotAll (c : Canvas) (bs : List Byte) (x0 y0 : Nat) :
    c.drawRows bs x0 y0 = plotAll (spriteCells bs x0 y0) c := by
  induction bs generalizing c y0 with
  | nil => rfl
  | cons b bs ih => rw [Canvas.drawRows, ih, drawByte_eq_plotAll, spriteCells, plotAll_append]

theorem mem_rowCells {b : Byte} {x0 y0 : Nat} {q : ScreenCell} : q ∈ rowCells b x0 y0 ↔
    ∃ col < 8, spritePixel b col = true ∧ (x0 + col) % 64 = q.1.val ∧ y0 % 32 = q.2.val := by
  simp only [rowCells, List.mem_map, List.mem_filter, List.mem_range, Prod.ext_iff, Fin.ext_iff, Fin.val_ofNat,
    and_assoc]

theorem mem_spriteCells {bs : List Byte} {x0 y0 : Nat} {q : ScreenCell} : q ∈ spriteCells bs x0 y0 ↔
    ∃ row < bs.length, ∃ col < 8,
      spritePixel (bs.getD row 0) col = true ∧ (x0 + col) % 64 = q.1.val ∧ (y0 + row) % 32 = q.2.val := by
  induction bs generalizing y0 with
  | nil => simp [spriteCells]
  | cons b bs ih =>
    rw [spriteCells, List.mem_append, mem_rowCells, ih, List.length_cons,
      Nat.exists_lt_succ_left (n := bs.length)]
    simp only [List.getD_cons_zero, List.getD_cons_succ, Nat.add_zero, Nat.add_assoc, Nat.add_comm 1]

theorem rowCells_nodup (b : Byte) (x0 y0 : Nat) : (rowCells b x0 y0).Nodup := by
  refine List.Nodup.map_on (fun col hcol col' hcol' heq => ?_) (List.nodup_range.filter _)
  have hlt : col < 8 := List.mem_range.mp (List.mem_filter.mp hcol).1
  have hlt' : col' < 8 := List.mem_range.mp (List.mem_filter.mp hcol').1
  have hmod : (x0 + col) % 64 = (x0 + col') % 64 := congrArg (fun q : ScreenCell => q.1.val) heq
  omega

/-- At most 32 rows fall on rows of the screen that are all different. -/
theorem spriteCells_nodup {bs : List Byte} (hlen : bs.length ≤ 32) (x0 y0 : Nat) : (spriteCells bs x0 y0).Nodup := by
  induction bs generalizing y0 with
  | nil => exact List.nodup_nil
  | cons b bs ih =>
    rw [List.length_cons] at hlen
    refine List.nodup_append'.mpr ⟨rowCells_nodup b x0 y0, ih (by omega) (y0 + 1), fun q hq hq' => ?_⟩
    obtain ⟨-, -, -, -, hrow⟩ := mem_rowCells.mp hq
    obtain ⟨row, hlt, -, -, -, -, hrow'⟩ := mem_spriteCells.mp hq'
    omega

/-! ## The instruction -/

theorem spritePixel_eq_getLsbD (b : Byte) (col : Nat) : spritePixel b col = b.getLsbD (7 - col) := by
  show (b >>> (7 - col) &&& 1#8 == 1) = _
  rw [BitVec.and_one_eq_setWidth_ofBool_getLsbD, BitVec.getLsbD_ushiftRight, Nat.add_zero]
  cases b.getLsbD (7 - col) <;> rfl

/-- The cells that the sprite of a Draw covers. -/
def drawnCells (x y : Reg) (n : Nat) (s : State) : List ScreenCell :=
  spriteCells (s.readAtI n) (s.reg x).toNat (s.reg y).toNat

theorem drawCanvas_eq_plotAll (x y : Reg) (n : Nat) (s : State) :
    drawCanvas x y n s = plotAll (drawnCells x y n s) { fb := s.fb, vf := 0 } := drawRows_eq_plotAll _ _ _ _

theorem drawnCells_nodup (x y : Reg) {n : Nat} (hn : n < 16) (s : State) : (drawnCells x y n s).Nodup :=
  spriteCells_nodup (by rw [State.readAtI, length_readBytes]; omega) _ _

theorem spritePixel_readAtI (s : State) {n row : Nat} (hrow : row < n) (col : Nat) :
    spritePixel ((s.readAtI n).getD row 0) col = spriteBit s row col := by
  rw [spritePixel_eq_getLsbD, State.readAtI, getD_readBytes _ _ hrow]
  rfl

theorem covers_iff_mem_drawnCells {x y : Reg} {n : Nat} {s : State} {px : Fin 64} {py : Fin 32} :
    Covers s n (s.reg x).toNat (s.reg y).toNat px py ↔ (px, py) ∈ drawnCells x y n s := by
  rw [drawnCells, mem_spriteCells, State.readAtI, length_readBytes]
  refine exists_congr fun row => and_congr_right fun hrow => exists_congr fun col => and_congr_right fun _ => ?_
  rw [← spritePixel_readAtI s hrow col]
  rfl

/-- Settles O18: the cells of the sprite are all different, so a cell changes exactly when it is one of them, and VF is
1 exactly when one of them was set. -/
theorem drawXorsTheSprite : Obligations.DrawXorsTheSprite := by
  unfold Obligations.DrawXorsTheSprite
  intro x y n s hn hread
  have hnodup := drawnCells_nodup x y hn s
  have hexec := (exec_draw x y n s).trans (withReadable_of_readable hread)
  rw [drawCanvas_eq_plotAll] at hexec
  refine ⟨_, hexec, fun px py => ?_, ?_, fun hclear => ?_, rfl, rfl, fun r hr => ?_,
    onlyWrites_of_keeps keepsAllBut_of_fields⟩
  · exact (pixel_plotAll_ne_iff hnodup (px, py) _).trans covers_iff_mem_drawnCells.symm
  · rintro ⟨px, py, hcovers, hset⟩
    rw [reg_advance, reg_setReg, if_pos rfl]
    exact vf_plotAll_of_set hnodup (covers_iff_mem_drawnCells.mp hcovers) hset
  · rw [reg_advance, reg_setReg, if_pos rfl]
    exact vf_plotAll_of_clear hnodup fun q hq => hclear q.1 q.2 (covers_iff_mem_drawnCells.mpr hq)
  · rw [reg_advance, reg_setReg, if_neg (List.ne_of_not_mem_cons hr)]
    rfl

/-! ## The same sprite drawn twice -/

theorem readable_of_exec_draw {x y : Reg} {n : Nat} {s t : State} (hexec : exec (.draw x y n) s = .next t) :
    Readable s n := (exec_eq_next_iff_permitted (.draw x y n) s).mp ⟨t, hexec⟩

theorem covers_congr {s t : State} (hmem : ∀ a, t.mem.read a = s.mem.read a) (hi : t.i = s.i) (n x0 y0 : Nat)
    (px : Fin 64) (py : Fin 32) : Covers t n x0 y0 px py ↔ Covers s n x0 y0 px py := by
  simp only [Covers, spriteBit, hmem, hi]

/-- A pixel of value 1 falls on some cell. -/
theorem exists_covers_of_spriteBit {s : State} {n : Nat} (hbit : ∃ row < n, ∃ col < 8, spriteBit s row col = true)
    (x0 y0 : Nat) : ∃ px py, Covers s n x0 y0 px py := by
  obtain ⟨row, hrow, col, hcol, hset⟩ := hbit
  exact ⟨Fin.ofNat 64 (x0 + col), Fin.ofNat 32 (y0 + row), row, hrow, col, hcol, hset, rfl, rfl⟩

theorem eq_of_changed_iff_changed : ∀ a b c : Bool, (b ≠ a ↔ c ≠ b) → c = a := by decide

/-- Settles O19: both Draws cover the same cells, so each changes back what the other changed; and a covered cell that
was clear before the first is set before the second. -/
theorem drawTwiceRestoresTheScreen : Obligations.DrawTwiceRestoresTheScreen := by
  unfold Obligations.DrawTwiceRestoresTheScreen
  intro x y n s t u hn hx hy hfst hsnd
  obtain ⟨hfstPixel, hfstSet, -, -, -, hregs, hframe⟩ :=
    of_completes_of_exec_eq (drawXorsTheSprite x y n s hn (readable_of_exec_draw hfst)) hfst
  obtain ⟨hsndPixel, hsndSet, -⟩ :=
    of_completes_of_exec_eq (drawXorsTheSprite x y n t hn (readable_of_exec_draw hsnd)) hsnd
  have hmem : ∀ a, t.mem.read a = s.mem.read a := hframe .mem (by decide)
  have hi : t.i = s.i := hframe .i (by decide)
  rw [hregs x (by simpa using hx), hregs y (by simpa using hy)] at hsndPixel hsndSet
  simp only [covers_congr hmem hi] at hsndPixel hsndSet
  refine ⟨fun px py => ?_, fun hbit hvf => ?_⟩
  · exact eq_of_changed_iff_changed _ _ _ ((hfstPixel px py).trans (hsndPixel px py).symm)
  · obtain ⟨px, py, hcovers⟩ := exists_covers_of_spriteBit hbit (s.reg x).toNat (s.reg y).toNat
    have hclear : ¬ Framebuffer.pixel s.fb px py = true := fun hset => by
      rw [hfstSet ⟨px, py, hcovers, hset⟩] at hvf
      exact absurd hvf (by decide)
    have hnow : Framebuffer.pixel t.fb px py = true := by
      have hchanged := (hfstPixel px py).mpr hcovers
      rw [Bool.eq_false_iff.mpr hclear] at hchanged
      exact Bool.not_eq_false _ ▸ hchanged
    exact hsndSet ⟨px, py, hcovers, hnow⟩

/-- A one-pixel sprite at the lit cell (0, 0). -/
def litCorner : State :=
  { State.reset with i := 0x300, mem := [(0x300, 0x80)], fb := Framebuffer.toggle Framebuffer.blank 0 0 }

/-- Refutes O20: the first Draw clears the lit cell under the sprite, so the second meets no set cell. -/
theorem not_secondDrawAlwaysCollides : ¬ Obligations.SecondDrawAlwaysCollides := by
  unfold Obligations.SecondDrawAlwaysCollides
  intro h
  have hvf := h 0 1 1 litCorner _ _ (by decide) (by decide) (by decide) rfl rfl
    ⟨0, by decide, 0, by decide, by decide⟩
  exact absurd hvf (by decide)

end Sys2Proof.Proofs
end

section
/-! The whole machine (10_state.md R13, R29): what every instruction writes, which registers and bytes, and where it
leaves `pc`. -/

namespace Sys2Proof.Proofs

open Sys2Proof.Machine Sys2Proof.Safety Sys2Proof.Laws

/-! ## The next states of the instructions that check first -/

section
variable {s t u : State} {word : Word} {n : Nat}

theorem next_of_withReadable (h : withReadable s word n (.next u) = .next t) : u = t := by
  rcases withReadable_cases s word n (.next u) with ⟨-, heq⟩ | ⟨-, heq⟩ <;> cases heq.symm.trans h
  rfl

theorem next_of_withWritable (h : withWritable s word n (.next u) = .next t) : Writable s n ∧ u = t := by
  rcases withWritable_cases s word n (.next u) with ⟨hw, heq⟩ | ⟨-, heq⟩ | ⟨-, -, heq⟩ <;> cases heq.symm.trans h
  exact ⟨hw, rfl⟩

theorem next_of_skipOnKey {x : Reg} {cond : Bool → Bool} (h : skipOnKey x word cond s = .next t) :
    ∃ c, s.skipIf c = t := by
  rcases skipOnKey_cases x word cond s with ⟨k, -, heq⟩ | ⟨-, heq⟩ <;> cases heq.symm.trans h
  exact ⟨_, rfl⟩

theorem next_of_exec_waitKey {x : Reg} (h : exec (.waitKey x) s = .next t) :
    s = t ∨ ∃ k, ((s.setReg x (BitVec.ofNat 8 k.val)).setKeyCell k false).advance = t := by
  cases hkey : s.firstKey with
  | none => exact .inl (Host.Outcome.next.inj ((exec_waitKey_of_none x hkey).symm.trans h))
  | some k => exact .inr ⟨k, Host.Outcome.next.inj ((exec_waitKey_of_some x hkey).symm.trans h)⟩

theorem next_of_exec_call {nnn : Addr12} (h : exec (.call nnn) s = .next t) :
    ∃ (stack : Vector Word 16) (sp : Fin 17), { s with stack := stack, sp := sp }.jumpTo (addrOf nnn) = t ∧
      sp.val = s.sp.val + 1 ∧ ∀ k : Fin 16, stack[k.val] = if k.val = s.sp.val then s.pc else s.stack[k.val] := by
  obtain ⟨stack, sp, hexec, hslots⟩ := exec_call_of_lt nnn (sp_lt_of_exec_call h)
  exact ⟨stack, sp, Host.Outcome.next.inj (hexec.symm.trans h), hslots⟩

theorem next_of_exec_ret (h : exec .ret s = .next t) :
    ∃ (k : Fin 16) (q : Fin 17), { s with sp := q }.jumpTo (s.stack[k.val] + 2) = t ∧
      s.sp.val = k.val + 1 ∧ q.val = k.val := by
  have hne : s.sp.val ≠ 0 := (exec_eq_next_iff_permitted .ret s).mp ⟨t, h⟩
  have hlt : s.sp.val < 17 := s.sp.isLt
  have hsp : s.sp.val = (⟨s.sp.val - 1, by omega⟩ : Fin 16).val + 1 := by simp only; omega
  obtain ⟨q, hexec, hq⟩ := exec_ret_of_succ hsp
  exact ⟨_, q, Host.Outcome.next.inj (hexec.symm.trans h), hsp, hq⟩

end

/-! ## What is written -/

/-- Every instruction keeps the fields of the elements that R29 does not list for it. -/
theorem exec_keepsAllBut {i : Instr} {s t : State} (h : exec i s = .next t) : KeepsAllBut (writes i) s t := by
  cases i with
  | ret =>
    obtain ⟨k, q, rfl, -⟩ := next_of_exec_ret h
    exact keepsAllBut_of_fields
  | call =>
    obtain ⟨stack, sp, rfl, -⟩ := next_of_exec_call h
    exact keepsAllBut_of_fields
  | draw | loadRegs =>
    obtain rfl := next_of_withReadable h
    exact keepsAllBut_of_fields
  | storeRegs | storeBCD =>
    obtain ⟨-, rfl⟩ := next_of_withWritable h
    exact keepsAllBut_of_fields
  | skipKeyDown x =>
    obtain ⟨c, rfl⟩ := next_of_skipOnKey ((exec_skipKeyDown x s).symm.trans h)
    exact keepsAllBut_of_fields
  | skipKeyUp x =>
    obtain ⟨c, rfl⟩ := next_of_skipOnKey ((exec_skipKeyUp x s).symm.trans h)
    exact keepsAllBut_of_fields
  | waitKey =>
    rcases next_of_exec_waitKey h with rfl | ⟨k, rfl⟩ <;> exact keepsAllBut_of_fields
  | _ =>
    cases h
    exact keepsAllBut_of_fields

/-- The memory after an instruction: the bytes it stores at `I`, which lie in memory and outside the font. -/
theorem exec_mem {i : Instr} {s t : State} (h : exec i s = .next t) :
    ∃ bs : List Byte, bs.length = bytesStored i ∧ Writable s bs.length ∧ t.mem = (s.writeAtI bs).mem := by
  cases i with
  | storeRegs x =>
    obtain ⟨hw, rfl⟩ := next_of_withWritable h
    exact ⟨_, length_take_regs s x, (length_take_regs s x).symm ▸ hw, rfl⟩
  | storeBCD x =>
    obtain ⟨hw, rfl⟩ := next_of_withWritable h
    exact ⟨_, length_bcdDigits (s.reg x), hw, rfl⟩
  | _ => exact ⟨[], rfl, ⟨.inl rfl, nofun⟩, exec_keepsAllBut h .mem (by simp [writes])⟩

theorem onlyRegs_of_flagThenResult {i : Instr} {s t : State} {flag : Byte} {x : Reg} {result : State → Byte}
    (hexec : exec i s = flagThenResult flag x result s) (h : exec i s = .next t) : OnlyRegs [regVF, x] s t := by
  obtain ⟨-, -, -, hregs, -⟩ := of_completes_of_exec_eq (completes_flagThenResult hexec) h
  exact onlyRegs_mono hregs (by simp)

theorem exec_onlyRegs {i : Instr} {s t : State} (h : exec i s = .next t) : OnlyRegs (regsWritten i) s t := by
  cases i with
  | loadN | addN | move | or | and | xor | readDelay =>
    cases h
    exact advance_setReg_onlyRegs s _ _
  | addC x y => exact onlyRegs_of_flagThenResult (exec_addC x y s) h
  | subB x y => exact onlyRegs_of_flagThenResult (exec_subB x y s) h
  | shr x y => exact onlyRegs_of_flagThenResult (exec_shr x y s) h
  | subBRev x y => exact onlyRegs_of_flagThenResult (exec_subBRev x y s) h
  | shl x y => exact onlyRegs_of_flagThenResult (exec_shl x y s) h
  | rand x nn =>
    cases h
    exact advance_setReg_onlyRegs s.rndDrawn x _
  | waitKey x =>
    rcases next_of_exec_waitKey h with rfl | ⟨k, rfl⟩
    · exact onlyRegs_of_v_eq rfl
    · exact advance_setReg_onlyRegs s x _
  | draw =>
    obtain rfl := next_of_withReadable h
    exact advance_setReg_onlyRegs { s with fb := _, drawFlag := true } regVF _
  | loadRegs x =>
    have hread : Readable s (x.val + 1) := (exec_eq_next_iff_permitted (.loadRegs x) s).mp ⟨t, h⟩
    obtain ⟨hregs, -⟩ := of_completes_of_exec_eq (loadRegsLoadsTheRegisters x s hread) h
    exact fun r hr => (hregs r).trans (if_neg fun hle => hr (by simp [regsWritten, hle]))
  | _ => exact onlyRegs_of_v_eq (exec_keepsAllBut h .v (by simp [writes]))

/-- Settles O51: the frame and the registers of each instruction; the bytes are those written at `I`. -/
theorem instructionsWriteOnlyWhatIsListed : Obligations.InstructionsWriteOnlyWhatIsListed := by
  unfold Obligations.InstructionsWriteOnlyWhatIsListed
  intro i s t hwf h
  obtain ⟨bs, hlen, -, hmem⟩ := exec_mem h
  refine ⟨onlyWrites_of_keeps (exec_keepsAllBut h), exec_onlyRegs h, fun a ha => ?_⟩
  rw [hmem, read_writeAtI_of_not_inRange hwf bs (hlen ▸ ha)]

/-! ## Where `pc` goes -/

theorem skipIf_pc_cases (s : State) (c : Bool) : (s.skipIf c).pc = s.pc + 2 ∨ (s.skipIf c).pc = s.pc + 4 := by
  cases c
  · exact .inl rfl
  · exact .inr rfl

theorem exec_pc {i : Instr} {s t : State} (h : exec i s = .next t) (htransfer : isTransfer i = false) :
    t.pc = s.pc + 2 ∨ (isSkip i = true ∧ t.pc = s.pc + 4) ∨ ((∃ x, i = .waitKey x) ∧ t = s) := by
  have skip {c : Bool} (hskip : isSkip i = true) (heq : s.skipIf c = t) :
      t.pc = s.pc + 2 ∨ (isSkip i = true ∧ t.pc = s.pc + 4) ∨ ((∃ x, i = .waitKey x) ∧ t = s) :=
    heq ▸ (skipIf_pc_cases s c).imp_right fun hpc => .inl ⟨hskip, hpc⟩
  cases i with
  | ret | jump | call | jumpOffset => cases htransfer
  | skipEqN | skipNeN | skipEqV | skipNeV => exact skip rfl (Host.Outcome.next.inj h)
  | skipKeyDown x =>
    obtain ⟨c, heq⟩ := next_of_skipOnKey ((exec_skipKeyDown x s).symm.trans h)
    exact skip rfl heq
  | skipKeyUp x =>
    obtain ⟨c, heq⟩ := next_of_skipOnKey ((exec_skipKeyUp x s).symm.trans h)
    exact skip rfl heq
  | waitKey x =>
    rcases next_of_exec_waitKey h with rfl | ⟨k, rfl⟩
    · exact .inr (.inr ⟨⟨x, rfl⟩, rfl⟩)
    · exact .inl rfl
  | draw | loadRegs =>
    obtain rfl := next_of_withReadable h
    exact .inl rfl
  | storeRegs | storeBCD =>
    obtain ⟨-, rfl⟩ := next_of_withWritable h
    exact .inl rfl
  | _ =>
    cases h
    exact .inl rfl

/-- Settles O52: by the kinds of instruction. -/
theorem onlyTransfersAndSkipsDoMoreThanAdvance : Obligations.OnlyTransfersAndSkipsDoMoreThanAdvance := by
  unfold Obligations.OnlyTransfersAndSkipsDoMoreThanAdvance
  exact fun _ _ _ => exec_pc

end Sys2Proof.Proofs
end

section
/-! One step and its status (60_exceptions.md R121 to R123, R140): a known word, an unknown word, a fetch beyond memory;
and that every step is reported. -/

namespace Sys2Proof.Proofs

open Sys2Proof.Machine Sys2Proof.Safety Sys2Proof.Laws

/-! ## The word at `pc` -/

theorem decodeWord_of_decode_pair {hi lo : Byte} {i : Instr} (h : decode [hi, lo] = .ok (i, [])) :
    decodeWord (wordOfBytes hi lo) = .ok i := by
  rw [decode_cons_cons] at h
  cases hdec : decodeWord (wordOfBytes hi lo) with
  | error e => rw [hdec] at h; cases h
  | ok j => rw [hdec] at h; cases h; rfl

theorem exists_decodeWord_error_of_decode_pair {hi lo : Byte} {e : DecodeError} (h : decode [hi, lo] = .error e) :
    ∃ e, decodeWord (wordOfBytes hi lo) = .error e := by
  rw [decode_cons_cons] at h
  cases hdec : decodeWord (wordOfBytes hi lo) with
  | error e => exact ⟨e, rfl⟩
  | ok j => rw [hdec] at h; cases h

/-! ## The status -/

section
variable {s : State} {w : Word}

theorem nextStatus_of_decode {i : Instr} (hf : fetch s = some w) (hd : decodeWord w = .ok i) : nextStatus s = .ok := by
  simp only [nextStatus, hf, hd]

theorem nextStatus_of_unknown {e : DecodeError} (hf : fetch s = some w) (hd : decodeWord w = .error e) :
    nextStatus s = .unknownOpcode s.pc w := by
  simp only [nextStatus, hf, hd]

end

theorem nextStatus_cases (s : State) : nextStatus s = .ok ∨ ∃ w, nextStatus s = .unknownOpcode s.pc w := by
  cases hf : fetch s with
  | none => exact .inl (by simp only [nextStatus, hf])
  | some w =>
    cases hd : decodeWord w with
    | error e => exact .inr ⟨w, nextStatus_of_unknown hf hd⟩
    | ok i => exact .inl (nextStatus_of_decode hf hd)

theorem report_next (s t : State) : report s (.next t) = some (nextStatus s, t) := rfl

theorem report_fault (s : State) (f : Fault) : report s (.fault f) = some (.fault f, s) := rfl

theorem stepReport_eq (s : State) : stepReport s = report s (step s) := rfl

theorem stepReportWith_eq (rnd : Byte) (s : State) : stepReportWith rnd s = report s (stepWith rnd s) := rfl

/-! ## The three kinds of step -/

theorem step_of_decode {s : State} {w : Word} {i : Instr} (hf : fetch s = some w) (hd : decodeWord w = .ok i) :
    step s = exec i s := fetchThen_of_decode exec hf hd

/-- Settles O8: the fetched word is that of the two bytes, so it decodes to the same instruction. -/
theorem stepRunsTheDecodedInstruction : Obligations.StepRunsTheDecodedInstruction := by
  unfold Obligations.StepRunsTheDecodedInstruction
  intro s i hpc hdecode
  have hf := fetch_of_pc_le hpc
  have hd := decodeWord_of_decode_pair hdecode
  refine ⟨step_of_decode hf hd, fun t hexec => ?_⟩
  rw [stepReport_eq, step_of_decode hf hd, hexec, report_next, nextStatus_of_decode hf hd]

/-- Settles O9: nothing is fetched. -/
theorem fetchBeyondMemoryFaults : Obligations.FetchBeyondMemoryFaults := by
  unfold Obligations.FetchBeyondMemoryFaults
  intro s hpc
  have hf : fetch s = none := by
    rcases fetch_cases s with ⟨hin, -⟩ | ⟨-, hf⟩
    · omega
    · exact hf
  have hstep : step s = .fault (.fetchOutOfRange s.pc) := fetchThen_of_fetch_none exec hf
  exact ⟨hstep, by rw [stepReport_eq, hstep, report_fault]⟩

theorem toNat_pc_add_two {s : State} (hpc : s.pc.toNat ≤ 0xFFE) : (s.pc + 2).toNat = s.pc.toNat + 2 := by
  bv_omega

theorem advance_onlyWrites (s : State) : OnlyWrites [.pc] s s.advance := jumpTo_onlyWrites s _

/-- Settles O10: the step is `advance`, which does not wrap where a word can be fetched. -/
theorem unknownWordOnlyAdvancesPc : Obligations.UnknownWordOnlyAdvancesPc := by
  unfold Obligations.UnknownWordOnlyAdvancesPc
  intro s e hpc hdecode
  have hf := fetch_of_pc_le hpc
  obtain ⟨e', hd⟩ := exists_decodeWord_error_of_decode_pair hdecode
  have hstep : step s = .next s.advance := fetchThen_of_unknown exec hf hd
  refine ⟨s.advance, _, hstep, toNat_pc_add_two hpc, advance_onlyWrites s, toNat_wordOfBytes _ _, ?_⟩
  rw [stepReport_eq, hstep, report_next, nextStatus_of_unknown hf hd]

/-! ## Every step is reported -/

theorem fetchThen_ne_refused {run : Instr → State → Outcome} {s : State} {r : Refusal}
    (hrun : ∀ i, run i s ≠ .refused r) : fetchThen run s ≠ .refused r := by
  rcases fetchThen_cases run s with ⟨-, -, heq⟩ | ⟨w, e, -, -, -, heq⟩ | ⟨w, i, -, -, -, heq⟩ <;> rw [heq]
  · nofun
  · nofun
  · exact hrun i

theorem execWith_ne_refused (rnd : Byte) (i : Instr) (s : State) (r : Refusal) : execWith rnd i s ≠ .refused r := by
  by_cases h : ∃ x nn, i = .rand x nn
  · obtain ⟨x, nn, rfl⟩ := h
    nofun
  · push Not at h
    rw [execWith_of_not_rand rnd h]
    exact exec_ne_refused i s r

theorem step_ne_refused (s : State) (r : Refusal) : step s ≠ .refused r :=
  fetchThen_ne_refused fun i => exec_ne_refused i s r

theorem stepWith_ne_refused (rnd : Byte) (s : State) (r : Refusal) : stepWith rnd s ≠ .refused r :=
  fetchThen_ne_refused fun i => execWith_ne_refused rnd i s r

/-- Settles O11: a step faults or has a next state, since none is refused. -/
theorem everyStepReturnsAStatus : Obligations.EveryStepReturnsAStatus := by
  unfold Obligations.EveryStepReturnsAStatus
  intro s o ho
  cases o with
  | next t => exact ⟨nextStatus s, t, report_next s t, .inr ⟨rfl, nextStatus_cases s⟩⟩
  | fault f => exact ⟨.fault f, s, report_fault s f, .inl ⟨f, rfl, rfl, rfl⟩⟩
  | refused r =>
    rcases ho with h | ⟨rnd, h⟩
    · exact absurd h.symm (step_ne_refused s r)
    · exact absurd h.symm (stepWith_ne_refused rnd s r)

end Sys2Proof.Proofs
end

section
/-! Memory filled from outside (60_exceptions.md R139, 70_reset_and_hazards.md R152): what `load_program` and the
placing of a word leave, and that the next fetch reads it. -/

namespace Sys2Proof.Proofs

open Sys2Proof.Machine Sys2Proof.Safety Sys2Proof.Laws

/-! ## Operations one after the other -/

theorem performAll_cons {op : Operation} {ops : List Operation} {c d e : Session} {o : Output} {os : List Output}
    (hop : perform op c = .ok (o, d)) (hops : performAll ops d = .ok (os, e)) :
    performAll (op :: ops) c = .ok (o :: os, e) := by
  simp only [performAll, hop, hops]

theorem performAll_cons_eq_ok {op : Operation} {ops : List Operation} {c e : Session} {outs : List Output}
    (h : performAll (op :: ops) c = .ok (outs, e)) :
    ∃ o d os, perform op c = .ok (o, d) ∧ performAll ops d = .ok (os, e) ∧ outs = o :: os := by
  cases hop : perform op c with
  | error err => simp only [performAll, hop] at h; cases h
  | ok r =>
    obtain ⟨o, d⟩ := r
    cases hops : performAll ops d with
    | error err => simp only [performAll, hop, hops] at h; cases h
    | ok q =>
      obtain ⟨os, e'⟩ := q
      simp only [performAll, hop, hops] at h
      cases h
      exact ⟨o, d, os, rfl, hops, rfl⟩

/-! ## Loading a program -/

theorem perform_loadProgram {image : List Byte} (hlen : image.length ≤ 3583) (s : State) :
    perform (.loadProgram image) { machine := s, phase := .fresh } =
      .ok (.nothing, { machine := loadProgram image s, phase := .loaded }) := by
  have hmax : ¬ image.length > Config.progMaxLen := not_lt.mpr hlen
  simp [perform, hmax]

theorem perform_loadProgram_of_too_long {image : List Byte} (hlen : 3583 < image.length) (s : State) :
    perform (.loadProgram image) { machine := s, phase := .fresh } = .error .imageTooLong := by
  have hmax : image.length > Config.progMaxLen := hlen
  simp [perform, hmax]

theorem perform_loadProgram_of_not_fresh (image : List Byte) (s : State) {p : Phase} (hp : p ≠ .fresh) :
    perform (.loadProgram image) { machine := s, phase := p } = .error .loadAtWrongTime := if_pos hp

/-- Settles O14: the copy is one write of bytes at 0x200, whose reads are known. -/
theorem loadProgramCopiesTheImage : Obligations.LoadProgramCopiesTheImage := by
  unfold Obligations.LoadProgramCopiesTheImage
  refine fun image s => ⟨fun hlen hwf => ?_, fun hlen => perform_loadProgram_of_too_long hlen s,
    fun p hp => perform_loadProgram_of_not_fresh image s hp⟩
  have hbase : Config.progBase = 0x200 := rfl
  refine ⟨_, perform_loadProgram hlen s, onlyWrites_of_keeps keepsAllBut_of_fields, fun k hk => ?_, fun a ha => ?_⟩
  · rw [loadProgram_mem, hbase, read_writeBytes hwf, if_pos (by omega), Nat.add_sub_cancel_left,
      List.getD_eq_getElem _ _ hk, List.getElem?_eq_getElem hk]
  · rw [loadProgram_mem, hbase, read_writeBytes hwf, if_neg (by omega)]

/-! ## The next fetch -/

/-- Bytes written from `pc` on are fetched. -/
theorem fetch_of_written {s : State} {m : Memory} {hi lo : Byte} {rest : List Byte} (hwf : m.wf)
    (hpc : s.pc.toNat ≤ 0xFFE) (hmem : s.mem = m.writeBytes s.pc.toNat (hi :: lo :: rest)) :
    fetch s = some (wordOfBytes hi lo) := by
  have hlen : (hi :: lo :: rest).length = rest.length + 2 := rfl
  rw [fetch_of_pc_le hpc, hmem, read_writeBytes hwf, read_writeBytes hwf, if_pos (by omega), if_pos (by omega),
    Nat.sub_self, Nat.add_sub_cancel_left]
  rfl

theorem reset_mem_wf : State.reset.mem.wf := by decide

/-- Settles O15: after reset `pc` is where the image begins. -/
theorem bootFetchesTheImage : Obligations.BootFetchesTheImage := by
  unfold Obligations.BootFetchesTheImage
  intro b0 b1 rest hlen
  have hpc : (loadProgram (b0 :: b1 :: rest) (resetMachine State.reset)).pc = 0x200 := rfl
  have hreset : perform .reset Session.start =
      .ok (.nothing, { machine := resetMachine State.reset, phase := .fresh }) := rfl
  have hload := perform_loadProgram (image := b0 :: b1 :: rest) hlen (resetMachine State.reset)
  exact ⟨_, _, performAll_cons hreset (performAll_cons hload rfl), hpc,
    fetch_of_written reset_mem_wf (by rw [hpc]; decide) rfl⟩

theorem placeAtPc_onlyWrites (s : State) (bs : List Byte) : OnlyWrites [.mem, .pc] s (placeAtPc s bs) := by
  unfold placeAtPc
  split_ifs <;> exact onlyWrites_of_keeps keepsAllBut_of_fields

theorem fetch_placeAtPc {s : State} (hwf : s.mem.wf) (w : Word) : fetch (placeAtPc s (wordBytes w)) = some w := by
  have hmemSize : Config.memSize = 4096 := rfl
  rw [← congrArg some (wordOfBytes_highByte_lowByte w)]
  unfold placeAtPc
  split_ifs with h
  · exact fetch_of_written hwf (by simp only; omega) rfl
  · exact fetch_of_written hwf (show (0x200 : Word).toNat ≤ 0xFFE by decide) rfl

theorem decodeWord_of_decodeTableWord {w : Nat} {i : Instr} (h : decodeTableWord 16 w = some i) :
    decodeWord (BitVec.ofNat 16 (w % 2 ^ 16)) = .ok i := by
  have hpair := decode_wordBytes_append (BitVec.ofNat 16 (w % 2 ^ 16)) []
  rw [List.append_nil] at hpair
  rw [decodeTableWord, tableBytes, hpair] at h
  cases hdec : decodeWord (BitVec.ofNat 16 (w % 2 ^ 16)) with
  | error e => rw [hdec] at h; cases h
  | ok j => rw [hdec] at h; cases h; rfl

/-- Settles O16: the placed word is fetched, and it decodes to the instruction. -/
theorem placedWordIsRunNext : Obligations.PlacedWordIsRunNext := by
  unfold Obligations.PlacedWordIsRunNext
  intro s w i hwf hdecode
  exact ⟨step_of_decode (fetch_placeAtPc hwf _) (decodeWord_of_decodeTableWord hdecode), placeAtPc_onlyWrites s _⟩

end Sys2Proof.Proofs
end

section
/-! The host's operations (60_exceptions.md R131, R137 to R144): one key, many ticks, what the operations that may be
issued while a program runs can do, and what is kept through a sequence of them. -/

namespace Sys2Proof.Proofs

open Sys2Proof.Machine Sys2Proof.Safety Sys2Proof.Laws

/-! ## The keypad -/

theorem perform_setKey (k : Fin 16) (pressed : Bool) (c : Session) :
    perform (.setKey k.val pressed) c = .ok (.nothing, { c with machine := setKey k pressed c.machine }) :=
  dif_pos k.isLt

theorem setKey_keepsAllBut (k : Fin 16) (pressed : Bool) (s : State) : KeepsAllBut [.key] s (setKey k pressed s) :=
  keepsAllBut_of_fields

theorem exec_keeps_keys {i : Instr} {s t : State} (h : exec i s = .next t) (hi : ∀ x, i ≠ .waitKey x) :
    t.key = s.key := by
  refine exec_keepsAllBut h .key ?_
  cases i with
  | waitKey x => exact absurd rfl (hi x)
  | _ => simp [writes]

/-- Settles O48: the call writes its cell, and the instructions' frames list the keypad for WaitKey alone. -/
theorem setKeyWritesOneKey : Obligations.SetKeyWritesOneKey := by
  unfold Obligations.SetKeyWritesOneKey
  refine ⟨fun k pressed c => ⟨?_, fun hk => dif_neg (not_lt.mpr hk)⟩, fun i s t h hi q => ?_⟩
  · rintro j rfl
    exact ⟨_, perform_setKey j pressed c, fun q => keyDown_setKey j q pressed c.machine,
      onlyWrites_of_keeps (setKey_keepsAllBut j pressed c.machine)⟩
  · rw [keyDown_def, keyDown_def, exec_keeps_keys h hi]

/-! ## Ticks -/

theorem fieldSame_trans {p : Part} {s t u : State} (h : FieldSame p s t) (h' : FieldSame p t u) : FieldSame p s u := by
  cases p <;> exact Eq.trans h' h

theorem keepsAllBut_trans {parts : List Part} {s t u : State} (h : KeepsAllBut parts s t)
    (h' : KeepsAllBut parts t u) : KeepsAllBut parts s u := fun p hp => fieldSame_trans (h p hp) (h' p hp)

theorem keepsAllBut_mono {parts more : List Part} {s t : State} (h : KeepsAllBut parts s t) (hsub : parts ⊆ more) :
    KeepsAllBut more s t := fun p hp => h p fun hmem => hp (hsub hmem)

theorem keepsAllBut_refl (parts : List Part) (s : State) : KeepsAllBut parts s s := keepsAllBut_of_fields

theorem tickTimers_keepsAllBut (s : State) : KeepsAllBut [.dt, .st] s (tickTimers s) := keepsAllBut_of_fields

theorem clearDrawFlag_keepsAllBut (s : State) : KeepsAllBut [.drawFlag] s (clearDrawFlag s) := keepsAllBut_of_fields

theorem toneOf_eq (s : State) : toneOf s = (1 == s.st.toNat) := by
  rw [Bool.eq_iff_iff, toneOf_eq_true_iff, beq_iff_eq, eq_comm]

/-- N ticks, as N operations: the timers, the outputs and the frame. -/
theorem performAll_ticks (n : Nat) (c : Session) : ∃ outs d,
    performAll (List.replicate n .tickTimers) c = .ok (outs, d) ∧
    d.machine.dt.toNat = c.machine.dt.toNat - n ∧ d.machine.st.toNat = c.machine.st.toNat - n ∧
    outs.length = n ∧ (∀ k, k < n → outs[k]? = some (.tone (k + 1 == c.machine.st.toNat))) ∧
    KeepsAllBut [.dt, .st] c.machine d.machine := by
  induction n generalizing c with
  | zero => exact ⟨[], c, rfl, rfl, rfl, rfl, nofun, keepsAllBut_refl _ _⟩
  | succ n ih =>
    obtain ⟨outs, d, hops, hdt, hst, hlen, houts, hkeeps⟩ := ih { c with machine := tickTimers c.machine }
    simp only [tickTimers_dt, tickTimers_st, toNat_countDown] at hdt hst houts
    refine ⟨_, d, performAll_cons (perform_tickTimers c) hops, by omega, by omega, by simp [hlen], fun k hk => ?_,
      keepsAllBut_trans (tickTimers_keepsAllBut c.machine) hkeeps⟩
    cases k with
    | zero => rw [List.getElem?_cons_zero, toneOf_eq]
    | succ k =>
      have htone : (k + 1 == c.machine.st.toNat - 1) = (k + 1 + 1 == c.machine.st.toNat) := by
        rw [Bool.eq_iff_iff, beq_iff_eq, beq_iff_eq]
        omega
      rw [List.getElem?_cons_succ, houts k (by omega), htone]

/-- Settles O47: by induction on the number of ticks. -/
theorem ticksDriveTimersToZero : Obligations.TicksDriveTimersToZero := by
  unfold Obligations.TicksDriveTimersToZero
  intro n c
  obtain ⟨outs, d, hops, hdt, hst, hlen, houts, hkeeps⟩ := performAll_ticks n c
  exact ⟨outs, d, hops, hdt, hst, hlen, houts, onlyWrites_of_keeps hkeeps⟩

/-! ## The operations while a program runs -/

/-- The elements that the host writes while a program runs. -/
abbrev hostParts : List Part := [.dt, .st, .key, .drawFlag]

theorem exists_stepReportWith (rnd : Byte) (s : State) : ∃ r t, stepReportWith rnd s = some (r, t) := by
  obtain ⟨r, t, h, -⟩ := everyStepReturnsAStatus s (stepWith rnd s) (.inr ⟨rnd, rfl⟩)
  exact ⟨r, t, h⟩

theorem perform_step {rnd : Byte} {c : Session} {r : Status} {t : State}
    (h : stepReportWith rnd c.machine = some (r, t)) :
    perform (.step rnd) c = .ok (.status r, { machine := t, phase := .running }) := by
  simp only [perform, h]

/-- Everything an operation that may be issued while a program runs can be: a step, or a write of the host's parts. -/
theorem perform_running_cases {op : Operation} (hop : whileRunning op = true) (c : Session) :
    (∃ rnd r t, perform op c = .ok (.status r, { machine := t, phase := .running }) ∧
      stepReportWith rnd c.machine = some (r, t)) ∨
    (∃ o t, perform op c = .ok (o, { machine := t, phase := c.phase }) ∧ (∀ r, o ≠ .status r) ∧
      KeepsAllBut hostParts c.machine t) := by
  cases op with
  | reset | loadProgram => cases hop
  | step rnd =>
    obtain ⟨r, t, h⟩ := exists_stepReportWith rnd c.machine
    exact .inl ⟨rnd, r, t, perform_step h, h⟩
  | tickTimers =>
    exact .inr ⟨_, _, perform_tickTimers c, nofun, keepsAllBut_mono (tickTimers_keepsAllBut c.machine) (by simp)⟩
  | setKey k pressed =>
    have hk : k < 16 := of_decide_eq_true hop
    exact .inr ⟨_, _, perform_setKey ⟨k, hk⟩ pressed c, nofun,
      keepsAllBut_mono (setKey_keepsAllBut ⟨k, hk⟩ pressed c.machine) (by simp)⟩
  | clearDrawFlag =>
    exact .inr ⟨_, _, perform_clearDrawFlag c, nofun,
      keepsAllBut_mono (clearDrawFlag_keepsAllBut c.machine) (by simp)⟩
  | snapshot => exact .inr ⟨_, _, perform_snapshot c, nofun, keepsAllBut_refl _ _⟩

/-- Settles O50: by induction on the operations, each of which is carried out. -/
theorem runningOperationsAlwaysComplete : Obligations.RunningOperationsAlwaysComplete := by
  unfold Obligations.RunningOperationsAlwaysComplete
  intro ops
  induction ops with
  | nil => exact fun c _ => ⟨[], c, rfl, rfl⟩
  | cons op ops ih =>
    intro c hall
    obtain ⟨hop, hops⟩ := List.forall_mem_cons.mp hall
    obtain ⟨o, d, hperform⟩ : ∃ o d, perform op c = .ok (o, d) := by
      rcases perform_running_cases hop c with ⟨_, _, _, h, _⟩ | ⟨_, _, h, _⟩ <;> exact ⟨_, _, h⟩
    obtain ⟨outs, e, hrest, hlen⟩ := ih d hops
    exact ⟨o :: outs, e, performAll_cons hperform hrest, by rw [List.length_cons, List.length_cons, hlen]⟩

/-- What each allowed operation keeps, and says in its output, holds of a sequence of them. -/
theorem performAll_keeps {P : State → Prop} {Q : Output → Prop} {allowed : Operation → Prop}
    (hop : ∀ op c o d, allowed op → P c.machine → perform op c = .ok (o, d) → P d.machine ∧ Q o) :
    ∀ (ops : List Operation) (c d : Session) (outs : List Output), (∀ op ∈ ops, allowed op) → P c.machine →
      performAll ops c = .ok (outs, d) → P d.machine ∧ ∀ o ∈ outs, Q o := by
  intro ops
  induction ops with
  | nil =>
    intro c d outs _ hP h
    cases h
    exact ⟨hP, nofun⟩
  | cons op ops ih =>
    intro c e outs hall hP h
    obtain ⟨hallowed, hrest⟩ := List.forall_mem_cons.mp hall
    obtain ⟨o, d, os, hperform, hops, rfl⟩ := performAll_cons_eq_ok h
    obtain ⟨hPd, hQ⟩ := hop op c o d hallowed hP hperform
    obtain ⟨hPe, hQs⟩ := ih d e os hrest hPd hops
    exact ⟨hPe, List.forall_mem_cons.mpr ⟨hQ, hQs⟩⟩

/-- Through operations while a program runs: what a step and a write of the host's parts keep is kept, and what holds of
the status of every step holds of every status. -/
theorem performAll_running_keeps {P : State → Prop} {R : Status → Prop}
    (hstep : ∀ rnd s r t, P s → stepReportWith rnd s = some (r, t) → P t ∧ R r)
    (hhost : ∀ s t, P s → KeepsAllBut hostParts s t → P t)
    {ops : List Operation} {c d : Session} {outs : List Output} (hops : ∀ op ∈ ops, whileRunning op = true)
    (hP : P c.machine) (h : performAll ops c = .ok (outs, d)) :
    P d.machine ∧ ∀ r, Output.status r ∈ outs → R r := by
  have hkeeps := performAll_keeps (P := P) (Q := fun o => ∀ r, o = .status r → R r)
    (allowed := fun op => whileRunning op = true) ?_ ops c d outs hops hP h
  · exact ⟨hkeeps.1, fun r hr => hkeeps.2 _ hr r rfl⟩
  · intro op c o d hop hP hperform
    rcases perform_running_cases hop c with ⟨rnd, r, t, heq, hreport⟩ | ⟨o', t, heq, ho, hkeep⟩
    · cases heq.symm.trans hperform
      obtain ⟨hPt, hR⟩ := hstep rnd _ r t hP hreport
      exact ⟨hPt, fun q hq => by cases hq; exact hR⟩
    · cases heq.symm.trans hperform
      exact ⟨hhost _ t hP hkeep, fun r hr => absurd hr (ho r)⟩

end Sys2Proof.Proofs
end

section
/-! A fault lasts (60_exceptions.md R121): whether a step faults, and how, depends on nothing that the host writes while
a program runs. -/

namespace Sys2Proof.Proofs

open Sys2Proof.Machine Sys2Proof.Safety Sys2Proof.Laws

section
variable {s t : State}

theorem fetch_congr (hpc : t.pc = s.pc) (hmem : t.mem = s.mem) : fetch t = fetch s := by
  unfold fetch
  rw [hpc, hmem]

theorem reg_congr (hv : t.v = s.v) (r : Reg) : t.reg r = s.reg r := by
  rw [reg_def, reg_def, hv]

theorem permitted_congr (hv : t.v = s.v) (hi : t.i = s.i) (hsp : t.sp = s.sp) (i : Instr) :
    Permitted i t ↔ Permitted i s := by
  cases i with
  | call | ret => simp only [Permitted, hsp]
  | draw | loadRegs => simp only [Permitted, Readable, hi]
  | storeRegs | storeBCD => simp only [Permitted, Writable, Readable, hi]
  | skipKeyDown x | skipKeyUp x => simp only [Permitted, reg_congr hv]
  | _ => exact Iff.rfl

theorem pastMemory_congr (hi : t.i = s.i) (n : Nat) : pastMemory t n = pastMemory s n := by
  unfold pastMemory dataAddr
  rw [hi]

theorem faultOf_congr (hv : t.v = s.v) (hi : t.i = s.i) (hpc : t.pc = s.pc) (i : Instr) :
    faultOf t i = faultOf s i := by
  cases i with
  | storeRegs | storeBCD => simp only [faultOf, pastMemory_congr hi, hi, hpc]
  | skipKeyDown x | skipKeyUp x => simp only [faultOf, reg_congr hv, hpc]
  | _ => simp only [faultOf, hi, hpc]

/-- A step that faults, faults the same way in every state with the same registers, index, stack depth, `pc` and
memory. -/
theorem step_fault_congr {f : Fault} (hv : t.v = s.v) (hi : t.i = s.i) (hsp : t.sp = s.sp) (hpc : t.pc = s.pc)
    (hmem : t.mem = s.mem) (h : step s = .fault f) : step t = .fault f := by
  have hfetch := fetch_congr hpc hmem
  rcases step_cases s with ⟨-, hf, heq⟩ | ⟨w, e, -, -, -, heq⟩ | ⟨w, i, -, hf, hd, heq⟩
  · cases heq.symm.trans h
    exact hpc ▸ fetchThen_of_fetch_none exec (hfetch.trans hf)
  · cases heq.symm.trans h
  · obtain ⟨hnot, rfl⟩ := exec_eq_fault_iff.mp (heq.symm.trans h)
    rw [step_of_decode (hfetch.trans hf) hd, exec_eq_fault_iff]
    exact ⟨fun hp => hnot ((permitted_congr hv hi hsp i).mp hp), (faultOf_congr hv hi hpc i).symm⟩

/-- A fault is the same whatever is presented: CXNN, which alone reads the input, does not fault. -/
theorem stepWith_eq_fault {f : Fault} (h : step s = .fault f) (rnd : Byte) : stepWith rnd s = .fault f := by
  rcases stepWith_cases rnd s with heq | ⟨w, x, nn, hf, hd, -⟩
  · rw [heq, h]
  · rw [step_of_decode hf hd] at h
    exact absurd (exec_rand x nn s) (by rw [h]; nofun)

end

/-- Settles O12: that a step would fault so is kept by a step, which then faults and leaves the state, and by every
write of the host's parts. -/
theorem faultLastsUntilReset : Obligations.FaultLastsUntilReset := by
  unfold Obligations.FaultLastsUntilReset
  intro ops c d outs f hfault hops h
  have hstep (rnd : Byte) (s : State) (r : Status) (t : State) (hs : step s = .fault f)
      (hreport : stepReportWith rnd s = some (r, t)) : step t = .fault f ∧ True := by
    rw [stepReportWith_eq, stepWith_eq_fault hs, report_fault] at hreport
    cases hreport
    exact ⟨hs, trivial⟩
  have hhost (s t : State) (hs : step s = .fault f) (hkeep : KeepsAllBut hostParts s t) : step t = .fault f :=
    step_fault_congr (hkeep .v (by decide)) (hkeep .i (by decide)) (hkeep .sp (by decide)) (hkeep .pc (by decide))
      (hkeep .mem (by decide)) hs
  have hd := (performAll_running_keeps (R := fun _ => True) hstep hhost hops hfault h).1
  refine ⟨hd, by rw [stepReport_eq, hd, report_fault], fun rnd => ⟨stepWith_eq_fault hd rnd, ?_⟩⟩
  rw [stepReportWith_eq, stepWith_eq_fault hd, report_fault]

end Sys2Proof.Proofs
end

section
/-! The end of a run (70_reset_and_hazards.md R154): a Jump to itself stays there for good. -/

namespace Sys2Proof.Proofs

open Sys2Proof.Machine Sys2Proof.Safety Sys2Proof.Laws

theorem atEnd_congr {s t : State} (hpc : t.pc = s.pc) (hmem : t.mem = s.mem) : atEnd t = atEnd s := by
  unfold atEnd
  rw [hpc, hmem]

/-- At the end the word at `pc` is the Jump to `pc`. -/
theorem exists_jump_of_atEnd {s : State} (h : atEnd s = true) :
    ∃ nnn, fetch s = some (encode (.jump nnn)) ∧ addrOf nnn = s.pc := by
  simp only [atEnd, Bool.and_eq_true, decide_eq_true_eq, beq_iff_eq] at h
  obtain ⟨hpc, hword⟩ := h
  have hnnn : (BitVec.ofNat 12 s.pc.toNat).toNat = s.pc.toNat := by rw [BitVec.toNat_ofNat]; omega
  refine ⟨BitVec.ofNat 12 s.pc.toNat, ?_, BitVec.eq_of_toNat_eq ((toNat_addrOf _).trans hnnn)⟩
  rw [fetch_of_pc_le hpc, Option.some.injEq]
  apply BitVec.eq_of_toNat_eq
  rw [toNat_wordOfBytes, hword, encode, toNat_encodeNNN (by decide), hnnn]

section
variable {s : State} (h : atEnd s = true)
include h

theorem step_of_atEnd : step s = .next s := by
  obtain ⟨nnn, hf, haddr⟩ := exists_jump_of_atEnd h
  rw [step_of_decode hf (decodeWord_encode rfl), exec_jump, haddr, jumpTo_pc_self]

theorem nextStatus_of_atEnd : nextStatus s = .ok := by
  obtain ⟨nnn, hf, -⟩ := exists_jump_of_atEnd h
  exact nextStatus_of_decode hf (decodeWord_encode rfl)

theorem stepWith_of_atEnd (rnd : Byte) : stepWith rnd s = .next s := by
  obtain ⟨nnn, hf, -⟩ := exists_jump_of_atEnd h
  rcases stepWith_cases rnd s with heq | ⟨w, x, nn, hf', hd, -⟩
  · rw [heq, step_of_atEnd h]
  · cases hf.symm.trans hf'
    exact absurd hd (by rw [decodeWord_encode rfl]; nofun)

theorem stepReport_of_atEnd : stepReport s = some (.ok, s) := by
  rw [stepReport_eq, step_of_atEnd h, report_next, nextStatus_of_atEnd h]

theorem stepReportWith_of_atEnd (rnd : Byte) : stepReportWith rnd s = some (.ok, s) := by
  rw [stepReportWith_eq, stepWith_of_atEnd h, report_next, nextStatus_of_atEnd h]

end

/-- Settles O58: a step at the end leaves the state, and the host writes neither `pc` nor memory. -/
theorem endOfRunIsFinal : Obligations.EndOfRunIsFinal := by
  unfold Obligations.EndOfRunIsFinal
  intro ops c d outs hend hops h
  have hstep (rnd : Byte) (s : State) (r : Status) (t : State)
      (hs : atEnd s = true ∧ KeepsAllBut hostParts c.machine s) (hreport : stepReportWith rnd s = some (r, t)) :
      (atEnd t = true ∧ KeepsAllBut hostParts c.machine t) ∧ r = .ok := by
    cases (stepReportWith_of_atEnd hs.1 rnd).symm.trans hreport
    exact ⟨hs, rfl⟩
  have hhost (s t : State) (hs : atEnd s = true ∧ KeepsAllBut hostParts c.machine s)
      (hkeep : KeepsAllBut hostParts s t) : atEnd t = true ∧ KeepsAllBut hostParts c.machine t :=
    ⟨(atEnd_congr (hkeep .pc (by decide)) (hkeep .mem (by decide))).trans hs.1, keepsAllBut_trans hs.2 hkeep⟩
  obtain ⟨⟨hd, hkeeps⟩, hstatus⟩ :=
    performAll_running_keeps (R := (· = .ok)) hstep hhost hops ⟨hend, keepsAllBut_refl _ _⟩ h
  exact ⟨hd, step_of_atEnd hd, stepReport_of_atEnd hd, stepReportWith_of_atEnd hd, hstatus, onlyWrites_of_keeps hkeeps⟩

end Sys2Proof.Proofs
end

section
/-! The invariant of every reachable state (10_state.md R13, R22, 20_memory.md R35, 41_flow.md R76): it holds after
reset, and every step and every operation of the host keeps it. -/

namespace Sys2Proof.Proofs

open Sys2Proof.Machine Sys2Proof.Safety Sys2Proof.Laws

/-! ## Memory -/

/-- What the invariant says of memory. -/
def MemInv (m : Memory) : Prop := m.wf ∧ m.inSpace ∧ ∀ a, inFont a = true → m.read a = resetByte a

theorem memInv_reset : MemInv State.reset.mem := ⟨reset_mem_wf, nofun, fun _ _ => rfl⟩

/-- Bytes written inside memory and outside the font. -/
theorem memInv_writeBytes {m : Memory} (h : MemInv m) {a : Nat} {bs : List Byte} (hend : a + bs.length ≤ Config.memSize)
    (hfont : ∀ k < bs.length, ¬ (fontBase ≤ a + k ∧ a + k < fontBase + fontSize)) : MemInv (m.writeBytes a bs) := by
  obtain ⟨hwf, hspace, hkept⟩ := h
  refine ⟨writeBytes_wf hwf a bs, writeBytes_inSpace hspace hend, fun b hb => ?_⟩
  have hout : ¬ (a ≤ b ∧ b < a + bs.length) := fun hin => by
    refine hfont (b - a) (by omega) ?_
    rw [Nat.add_sub_cancel' hin.1]
    exact (inFont_eq_true_iff b).mp hb
  rw [read_writeBytes hwf, if_neg hout, hkept b hb]

theorem memInv_writeAtI {s : State} (h : MemInv s.mem) {bs : List Byte} (hw : Writable s bs.length) :
    MemInv (s.writeAtI bs).mem := by
  rcases hw.1 with hnone | hend
  · rw [List.eq_nil_of_length_eq_zero hnone]
    exact h
  · exact memInv_writeBytes h hend hw.2

/-! ## The invariant by its parts -/

theorem inv_iff {s : State} : Inv s ↔
    MemInv s.mem ∧ s.pc.toNat ≤ 0x10FE ∧ ∀ k : Fin 16, k.val < s.sp.val → s.stack[k.val].toNat ≤ 0xFFE :=
  ⟨fun h => ⟨⟨h.canonical, h.inSpace, h.fontKept⟩, h.pcBound, h.returnAddrs⟩,
    fun ⟨⟨hwf, hspace, hfont⟩, hpc, haddrs⟩ => ⟨hwf, hspace, hfont, hpc, haddrs⟩⟩

/-- Settles O54: no cell is listed and no address is stacked. -/
theorem resetMeetsTheInvariant : Obligations.ResetMeetsTheInvariant := by
  unfold Obligations.ResetMeetsTheInvariant
  exact inv_iff.mpr ⟨memInv_reset, by decide, fun _ hk => absurd hk (Nat.not_lt_zero _)⟩

/-- The invariant reads memory, the stack and its depth, and bounds `pc`. -/
theorem inv_of_fields {s t : State} (h : Inv s) (hmem : t.mem = s.mem) (hstack : t.stack = s.stack) (hsp : t.sp = s.sp)
    (hpc : t.pc.toNat ≤ 0x10FE) : Inv t := by
  obtain ⟨hinv, -, haddrs⟩ := inv_iff.mp h
  exact inv_iff.mpr ⟨hmem ▸ hinv, hpc, by rwa [hstack, hsp]⟩

/-! ## A step -/

section
variable {i : Instr} {s t : State} (hinv : Inv s) (hfetched : s.pc.toNat ≤ 0xFFE) (h : exec i s = .next t)
include hinv hfetched h

theorem exec_pc_le : t.pc.toNat ≤ 0x10FE := by
  by_cases htransfer : isTransfer i = false
  · rcases exec_pc h htransfer with hpc | ⟨-, hpc⟩ | ⟨-, rfl⟩
    · rw [hpc]; bv_omega
    · rw [hpc]; bv_omega
    · omega
  · cases i with
    | ret =>
      obtain ⟨k, q, rfl, hsp, -⟩ := next_of_exec_ret h
      have haddr := hinv.returnAddrs k (by omega)
      rw [jumpTo_pc]
      bv_omega
    | jump nnn =>
      cases h
      have hnnn := nnn.isLt
      rw [jumpTo_pc, toNat_addrOf]
      omega
    | call nnn =>
      obtain ⟨stack, sp, rfl, -⟩ := next_of_exec_call h
      have hnnn := nnn.isLt
      rw [jumpTo_pc, toNat_addrOf]
      omega
    | jumpOffset nnn =>
      cases h
      have hnnn := nnn.isLt
      have hv0 := (s.reg 0).isLt
      rw [jumpTo_pc, toNat_addrOf_add_zext]
      omega
    | _ => exact absurd rfl htransfer

theorem exec_returnAddrs : ∀ k : Fin 16, k.val < t.sp.val → t.stack[k.val].toNat ≤ 0xFFE := by
  intro k hk
  cases i with
  | ret =>
    obtain ⟨j, q, rfl, hsp, hq⟩ := next_of_exec_ret h
    rw [jumpTo_sp, hq] at hk
    exact hinv.returnAddrs k (by omega)
  | call nnn =>
    obtain ⟨stack, sp, rfl, hsp, hslots⟩ := next_of_exec_call h
    rw [jumpTo_sp, hsp] at hk
    simp only [jumpTo_stack, hslots]
    split_ifs with htop
    · exact hfetched
    · exact hinv.returnAddrs k (by omega)
  | _ =>
    have hsp : t.sp = s.sp := exec_keepsAllBut h .sp (by simp [writes])
    have hstack : t.stack = s.stack := exec_keepsAllBut h .stack (by simp [writes])
    rw [hsp] at hk
    simp only [hstack]
    exact hinv.returnAddrs k hk

theorem exec_inv : Inv t := by
  obtain ⟨bs, -, hw, hmem⟩ := exec_mem h
  exact inv_iff.mpr ⟨hmem ▸ memInv_writeAtI (inv_iff.mp hinv).1 hw, exec_pc_le hinv hfetched h,
    exec_returnAddrs hinv hfetched h⟩

end

theorem toNat_pc_add_two_le {s : State} (hfetched : s.pc.toNat ≤ 0xFFE) : (s.pc + 2).toNat ≤ 0x10FE := by
  rw [toNat_pc_add_two hfetched]
  omega

theorem step_inv {s t : State} (hinv : Inv s) (h : step s = .next t) : Inv t := by
  rcases step_cases s with ⟨-, -, heq⟩ | ⟨w, e, hpc, -, -, heq⟩ | ⟨w, i, hpc, -, -, heq⟩
  · cases heq.symm.trans h
  · cases heq.symm.trans h
    exact inv_of_fields hinv rfl rfl rfl (toNat_pc_add_two_le hpc)
  · exact exec_inv hinv hpc (heq.symm.trans h)

/-- Settles O55: each part of the invariant through the instruction that is executed, or through `advance`. -/
theorem stepKeepsTheInvariant : Obligations.StepKeepsTheInvariant := by
  unfold Obligations.StepKeepsTheInvariant
  exact fun _ _ => step_inv

theorem pc_le_of_fetch {s : State} {w : Word} (h : fetch s = some w) : s.pc.toNat ≤ 0xFFE := by
  rcases fetch_cases s with ⟨hpc, -⟩ | ⟨-, hnone⟩
  · exact hpc
  · cases hnone.symm.trans h

theorem stepWith_inv {rnd : Byte} {s t : State} (hinv : Inv s) (h : stepWith rnd s = .next t) : Inv t := by
  rcases stepWith_cases rnd s with heq | ⟨w, x, nn, hf, -, heq⟩
  · exact step_inv hinv (heq.symm.trans h)
  · cases heq.symm.trans h
    exact inv_of_fields hinv rfl rfl rfl (toNat_pc_add_two_le (pc_le_of_fetch hf))

/-! ## The host's operations -/

theorem stepReportWith_inv {rnd : Byte} {s t : State} {r : Status} (hinv : Inv s)
    (h : stepReportWith rnd s = some (r, t)) : Inv t := by
  rw [stepReportWith_eq] at h
  cases hstep : stepWith rnd s with
  | next u =>
    rw [hstep] at h
    cases h
    exact stepWith_inv hinv hstep
  | fault f =>
    rw [hstep] at h
    cases h
    exact hinv
  | refused q => exact absurd hstep (stepWith_ne_refused rnd s q)

theorem loadProgram_inv {s : State} {image : List Byte} (hinv : Inv s) (hlen : image.length ≤ 3583) :
    Inv (loadProgram image s) := by
  obtain ⟨hmem, hpc, haddrs⟩ := inv_iff.mp hinv
  have hbase : Config.progBase = 0x200 := rfl
  have hsize : Config.memSize = 4096 := rfl
  have hfont : fontBase + fontSize = 0x0A0 := rfl
  exact inv_iff.mpr ⟨memInv_writeBytes hmem (by omega) (fun k _ => by omega), hpc, haddrs⟩

theorem resetMachine_inv (s : State) : Inv (resetMachine s) :=
  have hreset : Inv State.reset := resetMeetsTheInvariant
  inv_of_fields hreset rfl rfl rfl hreset.pcBound

theorem perform_inv {op : Operation} {c d : Session} {o : Output} (hinv : Inv c.machine)
    (h : perform op c = .ok (o, d)) : Inv d.machine := by
  by_cases hop : whileRunning op = true
  · rcases perform_running_cases hop c with ⟨rnd, r, t, heq, hreport⟩ | ⟨o', t, heq, -, hkeep⟩
    · cases heq.symm.trans h
      exact stepReportWith_inv hinv hreport
    · cases heq.symm.trans h
      have hpc : t.pc = c.machine.pc := hkeep .pc (by decide)
      exact inv_of_fields hinv (hkeep .mem (by decide)) (hkeep .stack (by decide)) (hkeep .sp (by decide))
        (hpc ▸ hinv.pcBound)
  · cases op with
    | reset =>
      cases h
      exact resetMachine_inv c.machine
    | loadProgram image =>
      simp only [perform] at h
      split_ifs at h with hphase hlen
      cases h
      exact loadProgram_inv hinv (not_lt.mp hlen)
    | setKey k pressed =>
      have hk : ¬ k < 16 := fun hlt => hop (decide_eq_true hlt)
      cases (dif_neg hk).symm.trans h
    | _ => exact absurd rfl hop

/-- Settles O56: by induction on the operations, each of which keeps the invariant. -/
theorem operationsKeepTheInvariant : Obligations.OperationsKeepTheInvariant := by
  unfold Obligations.OperationsKeepTheInvariant
  intro ops c d outs hinv h
  exact (performAll_keeps (P := Inv) (Q := fun _ => True) (allowed := fun _ => True)
    (fun _ _ _ _ _ hP hperform => ⟨perform_inv hP hperform, trivial⟩) ops c d outs (fun _ _ => trivial) hinv h).1

end Sys2Proof.Proofs
end

section
/-! What a step does not read (10_state.md R17, R20, 45_random_keypad_timers.md R111): the draw flag and the sound timer
are read by no instruction, the step's input by CXNN alone. -/

namespace Sys2Proof.Proofs

open Sys2Proof.Machine Sys2Proof.Safety Sys2Proof.Laws

/-! ## The draw flag and the sound timer -/

/-- The state with another draw flag and another sound timer. -/
abbrev withDrawAndSound (s : State) (d : Bool) (e : Byte) : State := { s with drawFlag := d, st := e }

section
variable (s : State) (d : Bool) (e : Byte)

theorem endAlike_fault (f : Fault) : EndAlike (.fault f) (.fault f) := rfl

theorem endAlike_withReadable {word : Word} {n : Nat} {go go' : Outcome} (h : EndAlike go go') :
    EndAlike (withReadable s word n go) (withReadable (withDrawAndSound s d e) word n go') := by
  have hcheck : pastMemory (withDrawAndSound s d e) n = pastMemory s n := rfl
  unfold withReadable
  rw [hcheck]
  split_ifs
  · exact endAlike_fault _
  · exact h

theorem endAlike_withWritable {word : Word} {n : Nat} {go go' : Outcome} (h : EndAlike go go') :
    EndAlike (withWritable s word n go) (withWritable (withDrawAndSound s d e) word n go') := by
  have hcheck : meetsFont (withDrawAndSound s d e) n = meetsFont s n := rfl
  unfold withWritable
  rw [hcheck]
  split_ifs
  · exact endAlike_withReadable s d e (endAlike_fault _)
  · exact endAlike_withReadable s d e h

theorem endAlike_skipOnKey (x : Reg) (word : Word) (cond : Bool → Bool) :
    EndAlike (skipOnKey x word cond s) (skipOnKey x word cond (withDrawAndSound s d e)) := by
  have hreg : (withDrawAndSound s d e).reg x = s.reg x := rfl
  unfold skipOnKey
  rw [hreg]
  cases keyOf (s.reg x) with
  | none => exact endAlike_fault _
  | some k => exact rfl

theorem pop_withDrawAndSound :
    (withDrawAndSound s d e).pop = s.pop.map fun r => (r.1, withDrawAndSound r.2 d e) := by
  unfold State.pop
  by_cases hsp : s.sp.val = 0
  · rw [dif_pos hsp, dif_pos hsp]; rfl
  · rw [dif_neg hsp, dif_neg hsp]; rfl

theorem pushPc_withDrawAndSound :
    (withDrawAndSound s d e).pushPc = s.pushPc.map fun t => withDrawAndSound t d e := by
  unfold State.pushPc
  by_cases hsp : s.sp.val < Config.stackDepth
  · rw [dif_pos hsp, dif_pos hsp]; rfl
  · rw [dif_neg hsp, dif_neg hsp]; rfl

theorem endAlike_execRet : EndAlike (execRet s) (execRet (withDrawAndSound s d e)) := by
  unfold execRet
  rw [pop_withDrawAndSound s d e]
  cases s.pop with
  | none => exact endAlike_fault _
  | some r => exact rfl

theorem endAlike_execCall (nnn : Addr12) : EndAlike (execCall nnn s) (execCall nnn (withDrawAndSound s d e)) := by
  unfold execCall
  rw [pushPc_withDrawAndSound s d e]
  cases s.pushPc with
  | none => exact endAlike_fault _
  | some t => exact rfl

theorem endAlike_execWaitKey (x : Reg) : EndAlike (execWaitKey x s) (execWaitKey x (withDrawAndSound s d e)) := by
  have hfirst : (withDrawAndSound s d e).firstKey = s.firstKey := rfl
  unfold execWaitKey
  rw [hfirst]
  cases s.firstKey with
  | none => exact rfl
  | some k => exact rfl

/-- Every instruction ends alike, by what it reads. -/
theorem exec_endAlike (i : Instr) : EndAlike (exec i s) (exec i (withDrawAndSound s d e)) := by
  cases i with
  | draw => exact endAlike_withReadable s d e rfl
  | loadRegs => exact endAlike_withReadable s d e rfl
  | storeRegs | storeBCD => exact endAlike_withWritable s d e rfl
  | skipKeyDown x => exact endAlike_skipOnKey s d e x _ (fun down => down)
  | skipKeyUp x => exact endAlike_skipOnKey s d e x _ (fun down => !down)
  | ret => exact endAlike_execRet s d e
  | call nnn => exact endAlike_execCall s d e nnn
  | waitKey x => exact endAlike_execWaitKey s d e x
  | _ => exact rfl

theorem execWith_endAlike (rnd : Byte) (i : Instr) :
    EndAlike (execWith rnd i s) (execWith rnd i (withDrawAndSound s d e)) := by
  by_cases hrand : ∃ x nn, i = .rand x nn
  · obtain ⟨x, nn, rfl⟩ := hrand
    exact rfl
  · push Not at hrand
    rw [execWith_of_not_rand rnd hrand, execWith_of_not_rand rnd hrand]
    exact exec_endAlike s d e i

theorem fetchThen_endAlike {run : Instr → State → Outcome}
    (hrun : ∀ i, EndAlike (run i s) (run i (withDrawAndSound s d e))) :
    EndAlike (fetchThen run s) (fetchThen run (withDrawAndSound s d e)) := by
  have hfetch : fetch (withDrawAndSound s d e) = fetch s := rfl
  cases hf : fetch s with
  | none =>
    rw [fetchThen_of_fetch_none run hf, fetchThen_of_fetch_none run (hfetch.trans hf)]
    exact endAlike_fault _
  | some w =>
    cases hd : decodeWord w with
    | error err =>
      rw [fetchThen_of_unknown run hf hd, fetchThen_of_unknown run (hfetch.trans hf) hd]
      exact rfl
    | ok i =>
      rw [fetchThen_of_decode run hf hd, fetchThen_of_decode run (hfetch.trans hf) hd]
      exact hrun i

end

/-- Settles O57: the two states fetch the same word, and what it decodes to ends alike. -/
theorem drawFlagAndSoundTimerAreNeverRead : Obligations.DrawFlagAndSoundTimerAreNeverRead := by
  unfold Obligations.DrawFlagAndSoundTimerAreNeverRead
  intro s t h
  obtain ⟨d, e, rfl⟩ : ∃ d e, t = withDrawAndSound s d e := ⟨_, _, h⟩
  exact ⟨fetchThen_endAlike s d e (exec_endAlike s d e),
    fun rnd => fetchThen_endAlike s d e (execWith_endAlike s d e rnd)⟩

/-! ## The input of a step -/

/-- Settles O59: a word that decodes to a CXNN is its encoding, and the encoding decodes to it. -/
theorem randAloneReadsTheInput : Obligations.RandAloneReadsTheInput := by
  unfold Obligations.RandAloneReadsTheInput
  refine fun s rnd => ⟨fun hnot => ?_, fun x nn hfetch => ⟨?_, ?_⟩⟩
  · rcases stepWith_cases rnd s with heq | ⟨w, x, nn, hf, hd, -⟩
    · exact heq
    · rw [← (encode_of_decodeWord hd).2] at hf
      exact absurd hf (hnot x nn)
  · have hd : decodeWord (encode (.rand x nn)) = .ok (.rand x nn) := decodeWord_encode rfl
    refine ⟨_, fetchThen_of_decode (execWith rnd) hfetch hd, ?_, rfl, advance_setReg_onlyRegs s x _,
      advance_setReg_onlyWrites s x _⟩
    rw [reg_advance, reg_setReg, if_pos rfl]
  · have hd : decodeWord (encode (.rand x nn)) = .ok (.rand x nn) := decodeWord_encode rfl
    exact ⟨_, fetchThen_of_decode (execWith s.rndByte) hfetch hd, step_of_decode hfetch hd⟩

end Sys2Proof.Proofs
end

section
/-! Waiting for a key (45_random_keypad_timers.md R115): a WaitKey with no key pressed stays, whatever the host does
short of a key, and one key and one step end the wait. -/

namespace Sys2Proof.Proofs

open Sys2Proof.Machine Sys2Proof.Safety Sys2Proof.Laws

/-- The word at `pc` is the WaitKey to register `x`. -/
def AtWaitKey (x : Reg) (s : State) : Prop := fetch s = some (encode (.waitKey x))

section
variable {x : Reg} {s t : State}

theorem atWaitKey_of_keeps (h : AtWaitKey x s) (hpc : t.pc = s.pc) (hmem : t.mem = s.mem) : AtWaitKey x t :=
  (fetch_congr hpc hmem).trans h

/-- A step at a WaitKey, whatever its input, is the WaitKey. -/
theorem stepWith_of_atWaitKey (h : AtWaitKey x s) (rnd : Byte) : stepWith rnd s = exec (.waitKey x) s :=
  fetchThen_of_decode (execWith rnd) h (decodeWord_encode rfl)

theorem stepReportWith_of_atWaitKey (h : AtWaitKey x s) (rnd : Byte) (hexec : exec (.waitKey x) s = .next t) :
    stepReportWith rnd s = some (.ok, t) := by
  rw [stepReportWith_eq, stepWith_of_atWaitKey h, hexec, report_next, nextStatus_of_decode h (decodeWord_encode rfl)]

/-- With no key pressed the step changes nothing. -/
theorem stepReportWith_waiting (h : AtWaitKey x s) (hnone : ∀ j, s.keyDown j = false) (rnd : Byte) :
    stepReportWith rnd s = some (.ok, s) :=
  stepReportWith_of_atWaitKey h rnd ((waitKeyReportsTheLowestKey x s).2 hnone)

/-- With one key pressed the step reports it, clears it, and goes on. -/
theorem stepReportWith_one_key (h : AtWaitKey x s) (rnd : Byte) {k : Fin 16} (hone : ∀ j, s.keyDown j = (j == k)) :
    stepReportWith rnd s = some (.ok, ((s.setReg x (BitVec.ofNat 8 k.val)).setKeyCell k false).advance) := by
  have hfirst : s.firstKey = some k :=
    (firstKey_eq_some_iff s k).mpr ⟨by simp [hone], fun j hj => by simp [hone, hj.ne]⟩
  exact stepReportWith_of_atWaitKey h rnd (exec_waitKey_of_some x hfirst)

end

theorem performAll_append {ops more : List Operation} {c d e : Session} {outs moreOuts : List Output}
    (h : performAll ops c = .ok (outs, d)) (hmore : performAll more d = .ok (moreOuts, e)) :
    performAll (ops ++ more) c = .ok (outs ++ moreOuts, e) := by
  induction ops generalizing c outs with
  | nil =>
    cases h
    exact hmore
  | cons op ops ih =>
    obtain ⟨o, c', os, hperform, hops, rfl⟩ := performAll_cons_eq_ok h
    exact performAll_cons hperform (ih hops)

/-- The operations through which a program waits. -/
def keepsWaiting (op : Operation) : Prop :=
  (∃ b, op = .step b) ∨ op = .tickTimers ∨ op = .clearDrawFlag ∨ op = .snapshot

theorem whileRunning_of_keepsWaiting {op : Operation} (h : keepsWaiting op) : whileRunning op = true := by
  rcases h with ⟨b, rfl⟩ | rfl | rfl | rfl <;> rfl

/-- While a program waits, the host's operations write the timers and the draw flag only. -/
theorem perform_waiting {x : Reg} {op : Operation} {c d : Session} {o : Output} (hop : keepsWaiting op)
    (hwait : AtWaitKey x c.machine) (hnone : ∀ j, c.machine.keyDown j = false) (h : perform op c = .ok (o, d)) :
    KeepsAllBut [.dt, .st, .drawFlag] c.machine d.machine := by
  rcases hop with ⟨b, rfl⟩ | rfl | rfl | rfl
  · cases (perform_step (stepReportWith_waiting hwait hnone b)).symm.trans h
    exact keepsAllBut_refl _ _
  · cases (perform_tickTimers c).symm.trans h
    exact keepsAllBut_mono (tickTimers_keepsAllBut c.machine) (by simp)
  · cases (perform_clearDrawFlag c).symm.trans h
    exact keepsAllBut_mono (clearDrawFlag_keepsAllBut c.machine) (by simp)
  · cases (perform_snapshot c).symm.trans h
    exact keepsAllBut_refl _ _

section
variable {x : Reg} {s t : State} (hkeeps : KeepsAllBut [.dt, .st, .drawFlag] s t)
include hkeeps

theorem atWaitKey_of_waiting (h : AtWaitKey x s) : AtWaitKey x t :=
  atWaitKey_of_keeps h (hkeeps .pc (by decide)) (hkeeps .mem (by decide))

theorem keyDown_of_waiting (hnone : ∀ j, s.keyDown j = false) (j : Fin 16) : t.keyDown j = false := by
  have hkey : t.key = s.key := hkeeps .key (by decide)
  rw [keyDown_def, hkey]
  exact hnone j

end

theorem performAll_waiting {x : Reg} {pre : List Operation} {c d : Session} {outs : List Output}
    (hpre : ∀ op ∈ pre, keepsWaiting op) (hwait : AtWaitKey x c.machine) (hnone : ∀ j, c.machine.keyDown j = false)
    (h : performAll pre c = .ok (outs, d)) : KeepsAllBut [.dt, .st, .drawFlag] c.machine d.machine := by
  refine (performAll_keeps (P := KeepsAllBut [.dt, .st, .drawFlag] c.machine) (Q := fun _ => True) ?_ pre c d outs hpre
    (keepsAllBut_refl _ _) h).1
  intro op c' d' o hop hkeeps hperform
  exact ⟨keepsAllBut_trans hkeeps
    (perform_waiting hop (atWaitKey_of_waiting hkeeps hwait) (keyDown_of_waiting hkeeps hnone) hperform), trivial⟩

/-- The state after the wait: the key pressed by the host has been reported and cleared. -/
def afterWait (x : Reg) (k : Fin 16) (s : State) : State :=
  (((setKey k true s).setReg x (BitVec.ofNat 8 k.val)).setKeyCell k false).advance

theorem performAll_key_then_step {x : Reg} {c : Session} (hwait : AtWaitKey x c.machine)
    (hnone : ∀ j, c.machine.keyDown j = false) (k : Fin 16) (rnd : Byte) : ∃ outs,
    performAll [.setKey k.val true, .step rnd] c =
      .ok (outs, { machine := afterWait x k c.machine, phase := .running }) := by
  have hone (j : Fin 16) : (setKey k true c.machine).keyDown j = (j == k) := by
    rw [keyDown_setKey, hnone]
    by_cases hj : j = k <;> simp [hj]
  have hreport := stepReportWith_one_key (atWaitKey_of_keeps hwait (setKey_pc k true c.machine) rfl) rnd hone
  exact ⟨_, performAll_cons (perform_setKey k true c) (performAll_cons (perform_step hreport) rfl)⟩

theorem keyDown_afterWait {x : Reg} {k : Fin 16} {s : State} (hnone : ∀ j, s.keyDown j = false) (j : Fin 16) :
    (afterWait x k s).keyDown j = false := by
  simp [afterWait, hnone]

theorem afterWait_keepsAllBut (x : Reg) (k : Fin 16) (s : State) : KeepsAllBut [.v, .key, .pc] s (afterWait x k s) := by
  unfold afterWait
  exact keepsAllBut_of_fields

theorem afterWait_onlyRegs (x : Reg) (k : Fin 16) (s : State) : OnlyRegs [x] s (afterWait x k s) :=
  advance_setReg_onlyRegs s x _

/-- Settles O45: through the wait only the timers and the draw flag change, so the program is still at its WaitKey when
the key is pressed. -/
theorem setKeyEndsTheWait : Obligations.SetKeyEndsTheWait := by
  unfold Obligations.SetKeyEndsTheWait
  intro x k rnd c pre hpc hdecode hnone hk hpre
  have hwait : AtWaitKey x c.machine := by
    rw [AtWaitKey, (encode_of_decodeWord (decodeWord_of_decode_pair hdecode)).2, fetch_of_pc_le hpc]
  obtain ⟨outs, d, hops, -⟩ :=
    runningOperationsAlwaysComplete pre c fun op hop => whileRunning_of_keepsWaiting (hpre op hop)
  have hkeeps := performAll_waiting hpre hwait hnone hops
  have hstill := keyDown_of_waiting hkeeps hnone
  obtain ⟨moreOuts, hend⟩ := performAll_key_then_step (atWaitKey_of_waiting hkeeps hwait) hstill ⟨k, hk⟩ rnd
  have hkeys := keyDown_afterWait (x := x) (k := ⟨k, hk⟩) hstill
  have hframe : KeepsAllBut [.key, .v, .pc, .dt, .st, .drawFlag] c.machine (afterWait x ⟨k, hk⟩ d.machine) :=
    keepsAllBut_trans (keepsAllBut_mono hkeeps (by simp)) (keepsAllBut_mono (afterWait_keepsAllBut x _ _) (by simp))
  refine ⟨_, _, performAll_append hops hend, ?_, ?_, hkeys, ?_, ?_⟩
  · have hsame : d.machine.pc = c.machine.pc := hkeeps .pc (by decide)
    exact congrArg (· + 2) hsame
  · rw [afterWait, reg_advance, reg_setKeyCell, reg_setReg, if_pos rfl]
    exact toNat_ofNat_key ⟨k, hk⟩
  · have hv : d.machine.v = c.machine.v := hkeeps .v (by decide)
    exact fun r hr => (afterWait_onlyRegs x _ d.machine r hr).trans (reg_congr hv r)
  · intro p hp
    by_cases hkey : p = .key
    · subst hkey
      exact fun j => (hkeys j).trans (hnone j).symm
    · exact onlyWrites_of_keeps hframe p fun hmem => (List.mem_cons.mp hmem).elim hkey hp

end Sys2Proof.Proofs
end
